-- ==== Sys2Proof/Word.lean ====
section
/-! DEFINITION. The word types of the block (00_scope R8, 30_encoding R81, R92). -/

namespace Sys2Proof

/-- Eight bits, bit 0 the least significant (00_scope R8). -/
abbrev Byte := BitVec 8

/-- Half a byte, as the wire frame carries it (30_encoding R81). -/
abbrev Nibble := BitVec 4

/-- One 16-bit operand field of the command word (30_encoding R92, `COORD_W` of 00_scope R7). -/
abbrev Field := BitVec 16

/-- The 72-bit command word (30_encoding R89, R92). -/
abbrev CmdWord := BitVec 72

/-- The 24 bits of a wire frame, the sync byte in bits 23..16 (30_encoding R81). -/
abbrev FrameWord := BitVec 24

end Sys2Proof
end

