-- ==== Sys2Proof/Config.lean ====
section
/-! DEFINITION. What is fixed when the block is built (00_scope R6, R7; 92 D8, D9, D10, D16), and the free value
of the framebuffer at power-on (10_state R39). The defaults marked general knowledge by the spec are PRESUMED
(log 5, 17). -/

namespace Sys2Proof

/-- `SYNC_INSTR` (00_scope R6). -/
def syncInstr : Byte := 0xF8

/-- `SYNC_DATA` (00_scope R6). -/
def syncData : Byte := 0xFA

/-- `CIRCLE_STEP`: the two forms of the circle's error adjustment (44_rasterizer_circle R178, log 6). -/
inductive CircleStep
  | variantA
  | variantB
  deriving DecidableEq, Repr

/-- The four holds, named as the labels of `HOLD` events (00_scope R12). -/
inductive Hold
  | settle
  | rstLow
  | rstHigh
  | clear
  deriving DecidableEq, Repr

/-- The parameters of 00_scope R7. The block has no command that reads or changes one (10_state R29, R38). -/
structure Config where
  opFuncBasic : Byte
  opDisplayOn : Byte
  opClear : Byte
  opEntryMode : Byte
  opFuncExt : Byte
  opFuncExtGfx : Byte
  opCursorBase : Byte
  opRowSelect : Byte
  opBank0 : Byte
  opBank1 : Byte
  circleStep : CircleStep
  /-- `T_RST_LOW` in microseconds; a lower bound (70_reset R248), as are the next three. -/
  tRstLow : Nat
  tRstHigh : Nat
  tClear : Nat
  tSettle : Nat
  /-- `SCLK_POL`, and below it `SCLK_PHA`, `SCLK_HZ`, `CS_MODE`: open, read by no rule (92 D8, log 18). -/
  sclkPol : Bool
  sclkPha : Bool
  sclkHz : Nat
  csMode : Nat
  deriving DecidableEq, Repr

namespace Config

/-- The values of the table of 00_scope R7 (log 5, 6, 17, 18). -/
def default : Config where
  opFuncBasic := 0x30
  opDisplayOn := 0x0C
  opClear := 0x01
  opEntryMode := 0x06
  opFuncExt := 0x34
  opFuncExtGfx := 0x36
  opCursorBase := 0x80
  opRowSelect := 0x80
  opBank0 := 0x80
  opBank1 := 0x88
  circleStep := .variantA
  tRstLow := 1000
  tRstHigh := 10000
  tClear := 2000
  tSettle := 72
  sclkPol := false
  sclkPha := false
  sclkHz := 0
  csMode := 0

/-- What every configuration must keep so that the source's structure survives (92 D9, D10): row bits are not
lost, the two banks differ, the cursor base is the source's 0x80, the three given durations are lower bounds. -/
def wf (c : Config) : Bool :=
  c.opRowSelect &&& 0x1F == 0 && c.opBank0 != c.opBank1 && c.opCursorBase == 0x80 &&
    1000 ≤ c.tRstLow && 10000 ≤ c.tRstHigh && 2000 ≤ c.tClear

/-- The least duration a hold stands for, in microseconds (00_scope R7). -/
def holdMicros (c : Config) : Hold → Nat
  | .settle => c.tSettle
  | .rstLow => c.tRstLow
  | .rstHigh => c.tRstHigh
  | .clear => c.tClear

/-- FREE VALUE: what byte `i` of `FB` holds at power-on, "unspecified: any 1024 bytes" (10_state R39, log 2).
Nothing can evaluate it, so a statement that holds of it holds for every power-on content. -/
opaque powerOnByte : Nat → Byte

end Config

end Sys2Proof
end

