-- ==== Sys2Proof/Syntax.lean ====
section
/-! DEFINITION. The rows of spec/opcode_table.json, one constructor each (30_encoding R81, R86, R93), and the
three layers of words that encode them (30_encoding, opening). -/

namespace Sys2Proof

/-- Twelve commands, two wire frames, nine LCD instruction bytes. Coordinates, radius and `col` are integers
(00_scope R9); `WellFormed.lean` says which of them a 16-bit field carries. -/
inductive Instr
  /-- SEND_INSTR `byte` (40_bus R112). -/
  | sendInstr (byte : Byte)
  /-- SEND_DATA `byte` (40_bus R113). -/
  | sendData (byte : Byte)
  /-- RESET (41_mode R125). -/
  | reset
  /-- CLEAR_TEXT (41_mode R129). -/
  | clearText
  /-- ENTER_GRAPHICS (41_mode R131). -/
  | enterGraphics
  /-- SET_CURSOR `line, col` (41_mode R133); `line` is all of field A. -/
  | setCursor (line : Field) (col : Int)
  /-- FB_CLEAR (42_framebuffer R150). -/
  | fbClear
  /-- FB_SET `x, y` (42_framebuffer R145). -/
  | fbSet (x y : Int)
  /-- FB_SET_CHECKED `x, y` (42_framebuffer R148). -/
  | fbSetChecked (x y : Int)
  /-- LINE `x0, y0, x1, y1` (43_rasterizer_line R160). -/
  | line (x0 y0 x1 y1 : Int)
  /-- CIRCLE `cx, cy, radius` (44_rasterizer_circle R176). -/
  | circle (cx cy radius : Int)
  /-- REFRESH (45_refresh_pump R190). -/
  | refresh
  /-- FRAME_INSTR: instruction frame with the nibbles `h`, `l` (30_encoding R81). -/
  | frameInstr (h l : Nibble)
  /-- FRAME_DATA: data frame with the nibbles `h`, `l` (30_encoding R81). -/
  | frameData (h l : Nibble)
  /-- LCD_FUNC_BASIC (30_encoding R86). -/
  | lcdFuncBasic
  /-- LCD_DISPLAY_ON (30_encoding R86). -/
  | lcdDisplayOn
  /-- LCD_CLEAR (30_encoding R86). -/
  | lcdClear
  /-- LCD_ENTRY_MODE (30_encoding R86). -/
  | lcdEntryMode
  /-- LCD_FUNC_EXT (30_encoding R86). -/
  | lcdFuncExt
  /-- LCD_FUNC_EXT_GFX (30_encoding R86). -/
  | lcdFuncExtGfx
  /-- LCD_CURSOR_ADDR `100abccc` (30_encoding R86). -/
  | lcdCursorAddr (a b : BitVec 1) (c : BitVec 3)
  /-- LCD_ROW_SELECT `100rrrrr` (30_encoding R86). -/
  | lcdRowSelect (r : BitVec 5)
  /-- LCD_BANK_SELECT `1000k000` (30_encoding R86). -/
  | lcdBankSelect (k : BitVec 1)
  deriving DecidableEq, Repr

/-- The place of an LCD instruction byte in what the block emits, by which the overlapping patterns are told
apart (30_encoding R86: "by its own mode ... and by their position in the sequence", log 10). -/
inductive LcdPlace
  /-- Sent by RESET, CLEAR_TEXT, ENTER_GRAPHICS or SET_CURSOR. -/
  | plain
  /-- First frame of a row of REFRESH. -/
  | rowSlot
  /-- Second frame of a row of REFRESH. -/
  | bankSlot
  deriving DecidableEq, Repr

/-- A word of one of the two inner layers: what the block itself forms while a command runs. No such word stands on
the command port, whose words have one length and one format (30_encoding R90). -/
inductive InnerWord
  /-- `FRAME24` (30_encoding R81). -/
  | frame (w : FrameWord)
  /-- `LCD8` (30_encoding R86). -/
  | lcd (place : LcdPlace) (b : Byte)
  deriving DecidableEq, Repr

/-- A word of one of the three formats of the opcode table (30_encoding R100). -/
inductive Encoded
  /-- `CMD72`, the command port's one format (30_encoding R90, R92). -/
  | command (w : CmdWord)
  /-- A word of an inner layer. -/
  | inner (u : InnerWord)
  deriving DecidableEq, Repr

/-- `FRAME24` as a word of the table. -/
abbrev Encoded.frame (w : FrameWord) : Encoded := .inner (.frame w)

/-- `LCD8` as a word of the table. -/
abbrev Encoded.lcd (place : LcdPlace) (b : Byte) : Encoded := .inner (.lcd place b)

end Sys2Proof
end

