-- ==== Sys2Proof/WellFormed.lean ====
section
/-! DEFINITION. Which instructions a word can carry: integer operands that a 16-bit two's complement field holds
(00_scope R9, 92 D3). Every other operand is exact by its type. Operand contracts (30_encoding R97) are not form. -/

namespace Sys2Proof

/-- The range of a coordinate or radius operand, [-32768, 32767] (10_state R31). -/
def fitsField (v : Int) : Bool := -32768 ≤ v && v ≤ 32767

/-- An instruction some word encodes (log 28). -/
def Instr.wf : Instr → Bool
  | .sendInstr _ => true
  | .sendData _ => true
  | .reset => true
  | .clearText => true
  | .enterGraphics => true
  | .setCursor _ col => fitsField col
  | .fbClear => true
  | .fbSet x y => fitsField x && fitsField y
  | .fbSetChecked x y => fitsField x && fitsField y
  | .line x0 y0 x1 y1 => fitsField x0 && fitsField y0 && fitsField x1 && fitsField y1
  | .circle cx cy radius => fitsField cx && fitsField cy && fitsField radius
  | .refresh => true
  | .frameInstr _ _ => true
  | .frameData _ _ => true
  | .lcdFuncBasic => true
  | .lcdDisplayOn => true
  | .lcdClear => true
  | .lcdEntryMode => true
  | .lcdFuncExt => true
  | .lcdFuncExtGfx => true
  | .lcdCursorAddr _ _ _ => true
  | .lcdRowSelect _ => true
  | .lcdBankSelect _ => true

end Sys2Proof
end

