-- ==== Sys2Proof/Decode.lean ====
section
/-! DEFINITION. Decoding of the three formats (30_encoding R81, R86, R92 to R97), total and rejecting by name, and
the encoder after it. -/

namespace Sys2Proof

/-- Why a word has no instruction. -/
inductive DecodeError
  /-- One of the 244 opcodes without a row (30_encoding R96). -/
  | reservedOpcode (op : Byte)
  /-- 24 bits that are no frame of 30_encoding R84. -/
  | malformedFrame (w : FrameWord)
  /-- A byte that is no row of 30_encoding R86 at its place. -/
  | unknownLcdByte (place : LcdPlace) (b : Byte)
  deriving DecidableEq, Repr

/-! ## The command word (30_encoding R92) -/

/-- `cmd_word[71:64]`. -/
def opcodeOf (w : CmdWord) : Byte := w.extractLsb' 64 8

/-- `cmd_word[63:48]`. -/
def fieldA (w : CmdWord) : Field := w.extractLsb' 48 16

/-- `cmd_word[47:32]`. -/
def fieldB (w : CmdWord) : Field := w.extractLsb' 32 16

/-- `cmd_word[31:16]`. -/
def fieldC (w : CmdWord) : Field := w.extractLsb' 16 16

/-- `cmd_word[15:0]`. -/
def fieldD (w : CmdWord) : Field := w.extractLsb' 0 16

/-- `sext_16` (00_scope R9, 30_encoding R88 e). -/
def sext16 (f : Field) : Int := f.toInt

/-- `A[7:0]`, the byte operand (30_encoding R88 f). -/
def lowByte (f : Field) : Byte := f.extractLsb' 0 8

/-- The opcode map (30_encoding R93); only the opcode selects the row (R94), unused fields are ignored (R95). -/
def decodeCommand (w : CmdWord) : Except DecodeError Instr :=
  let op := opcodeOf w
  if op = 0x10 then .ok (.sendInstr (lowByte (fieldA w)))
  else if op = 0x11 then .ok (.sendData (lowByte (fieldA w)))
  else if op = 0x20 then .ok .reset
  else if op = 0x21 then .ok .clearText
  else if op = 0x22 then .ok .enterGraphics
  else if op = 0x23 then .ok (.setCursor (fieldA w) (sext16 (fieldB w)))
  else if op = 0x30 then .ok .fbClear
  else if op = 0x31 then .ok (.fbSet (sext16 (fieldA w)) (sext16 (fieldB w)))
  else if op = 0x32 then .ok (.fbSetChecked (sext16 (fieldA w)) (sext16 (fieldB w)))
  else if op = 0x40 then
    .ok (.line (sext16 (fieldA w)) (sext16 (fieldB w)) (sext16 (fieldC w)) (sext16 (fieldD w)))
  else if op = 0x41 then .ok (.circle (sext16 (fieldA w)) (sext16 (fieldB w)) (sext16 (fieldC w)))
  else if op = 0x50 then .ok .refresh
  else .error (.reservedOpcode op)

/-! ## The wire frame (30_encoding R81, R84) -/

/-- Sync byte, then `hhhh0000`, then `llll0000`. -/
def decodeFrame (w : FrameWord) : Except DecodeError Instr :=
  let sync : Byte := w.extractLsb' 16 8
  let h : Nibble := w.extractLsb' 12 4
  let l : Nibble := w.extractLsb' 4 4
  if w.extractLsb' 8 4 = (0 : Nibble) ∧ w.extractLsb' 0 4 = (0 : Nibble) then
    if sync = syncInstr then .ok (.frameInstr h l)
    else if sync = syncData then .ok (.frameData h l)
    else .error (.malformedFrame w)
  else .error (.malformedFrame w)

/-! ## The LCD instruction bytes (30_encoding R86, default values) -/

/-- The rows of R86 at their places; the three patterns that overlap stand at different places (log 10). -/
def decodeLcd (place : LcdPlace) (b : Byte) : Except DecodeError Instr :=
  match place with
  | .plain =>
    if b = 0x30 then .ok .lcdFuncBasic
    else if b = 0x0C then .ok .lcdDisplayOn
    else if b = 0x01 then .ok .lcdClear
    else if b = 0x06 then .ok .lcdEntryMode
    else if b = 0x34 then .ok .lcdFuncExt
    else if b = 0x36 then .ok .lcdFuncExtGfx
    else if b.extractLsb' 5 3 = (0b100 : BitVec 3) then
      .ok (.lcdCursorAddr (b.extractLsb' 4 1) (b.extractLsb' 3 1) (b.extractLsb' 0 3))
    else .error (.unknownLcdByte place b)
  | .rowSlot =>
    if b.extractLsb' 5 3 = (0b100 : BitVec 3) then .ok (.lcdRowSelect (b.extractLsb' 0 5))
    else .error (.unknownLcdByte place b)
  | .bankSlot =>
    if b.extractLsb' 4 4 = (0b1000 : Nibble) ∧ b.extractLsb' 0 3 = (0 : BitVec 3) then
      .ok (.lcdBankSelect (b.extractLsb' 3 1))
    else .error (.unknownLcdByte place b)

/-- The decoder, on a word of any of the three formats. -/
def decode : Encoded → Except DecodeError Instr
  | .command w => decodeCommand w
  | .inner (.frame w) => decodeFrame w
  | .inner (.lcd place b) => decodeLcd place b

/-! ## The encoder (30_encoding R81, R86, R92, R93) -/

/-- `opcode ++ A ++ B ++ C ++ D` (30_encoding R92). -/
def commandWord (op : Byte) (a b c d : Field) : CmdWord := op ++ a ++ b ++ c ++ d

/-- The 16-bit two's complement field of an integer (00_scope R9). -/
def toField (v : Int) : Field := BitVec.ofInt 16 v

/-- `sync hhhh0000 llll0000` (30_encoding R81). -/
def frameWord (sync : Byte) (h l : Nibble) : FrameWord := sync ++ h ++ (0 : Nibble) ++ l ++ (0 : Nibble)

/-- The word of an instruction; unused fields are zero (30_encoding R95: "An assembler writes zeros"). -/
def encode : Instr → Encoded
  | .sendInstr byte => .command (commandWord 0x10 (byte.setWidth 16) 0 0 0)
  | .sendData byte => .command (commandWord 0x11 (byte.setWidth 16) 0 0 0)
  | .reset => .command (commandWord 0x20 0 0 0 0)
  | .clearText => .command (commandWord 0x21 0 0 0 0)
  | .enterGraphics => .command (commandWord 0x22 0 0 0 0)
  | .setCursor line col => .command (commandWord 0x23 line (toField col) 0 0)
  | .fbClear => .command (commandWord 0x30 0 0 0 0)
  | .fbSet x y => .command (commandWord 0x31 (toField x) (toField y) 0 0)
  | .fbSetChecked x y => .command (commandWord 0x32 (toField x) (toField y) 0 0)
  | .line x0 y0 x1 y1 => .command (commandWord 0x40 (toField x0) (toField y0) (toField x1) (toField y1))
  | .circle cx cy radius => .command (commandWord 0x41 (toField cx) (toField cy) (toField radius) 0)
  | .refresh => .command (commandWord 0x50 0 0 0 0)
  | .frameInstr h l => .frame (frameWord 0xF8 h l)
  | .frameData h l => .frame (frameWord 0xFA h l)
  | .lcdFuncBasic => .lcd .plain 0b00110000
  | .lcdDisplayOn => .lcd .plain 0b00001100
  | .lcdClear => .lcd .plain 0b00000001
  | .lcdEntryMode => .lcd .plain 0b00000110
  | .lcdFuncExt => .lcd .plain 0b00110100
  | .lcdFuncExtGfx => .lcd .plain 0b00110110
  | .lcdCursorAddr a b c => .lcd .plain ((0b100 : BitVec 3) ++ a ++ b ++ c)
  | .lcdRowSelect r => .lcd .rowSlot ((0b100 : BitVec 3) ++ r)
  | .lcdBankSelect k => .lcd .bankSlot ((0b1000 : Nibble) ++ k ++ (0 : BitVec 3))

/-- SEND_STRING `b0, ..., b(n-1)`: the pseudo-command's expansion into the words of SEND_DATA, one a byte, in order
(30_encoding R99, log 22). -/
def sendString (bytes : List Byte) : List CmdWord :=
  bytes.map fun b => commandWord 0x11 (b.setWidth 16) 0 0 0

/-! ## Words numbered as the opcode table numbers them -/

/-- The place given to an LCD byte that comes without one: the most specific pattern first, then the byte values
the source itself gives (log 10). -/
def guessPlace (b : Byte) : LcdPlace := if b = 0x80 ∨ b = 0x88 then .bankSlot else .plain

/-- A row's word by its length: 24 bits a frame, 8 bits an LCD byte, else a command word. -/
def tableWord (nbits w : Nat) : Encoded :=
  if nbits = 24 then .frame (BitVec.ofNat 24 w)
  else if nbits = 8 then .lcd (guessPlace (BitVec.ofNat 8 w)) (BitVec.ofNat 8 w)
  else .command (BitVec.ofNat 72 w)

/-- What the decoder reads from a table row's word; the table has rows of 72, 24 and 8 bits only. -/
def decodeTableWord (nbits w : Nat) : Option Instr :=
  if nbits = 72 ∨ nbits = 24 ∨ nbits = 8 then
    match decode (tableWord nbits w) with
    | .ok i => some i
    | .error _ => none
  else none

end Sys2Proof
end

