-- ==== Sys2Proof/Machine/State.lean ====
section
/-! DEFINITION. The state of the block (10_state R20 to R39), the trace (00_scope R12), and the reasons a step
can stop. -/

namespace Sys2Proof.Machine

/-- Device Mode, the register `MODE` (10_state R22, R23; as an enumeration, log 23). -/
inductive Mode
  | uninitialized
  | text
  | graphics
  deriving DecidableEq, Repr

/-- One event of the output trace (00_scope R12). -/
inductive Event
  /-- `RST(b)`: the reset line is driven to level `b`. -/
  | rst (level : Bool)
  /-- `BYTE(v)`: `v` was transferred and its completion seen. -/
  | byte (v : Byte)
  /-- `HOLD(T)`: the link is idle for at least `T`; a label (92 D22). -/
  | hold (t : Hold)
  deriving DecidableEq, Repr

/-- One step of the sequencer inside a command that uses the device pins (pseudocode of 40_bus R110, 41_mode R125
to R133, 45_refresh_pump R190). -/
inductive Act
  /-- `fsync <- sync`, `fval <- val`, `fidx <- 0`: a frame begins. -/
  | load (sync val : Byte)
  /-- Transfer physical byte number `k` of the frame, value `v`, and wait for `tx_done` (40_bus R111). -/
  | byte (k : Fin 3) (v : Byte)
  /-- `emit HOLD(T)`. -/
  | hold (t : Hold)
  /-- `RSTLINE <- level ; emit RST(level)`. -/
  | rst (level : Bool)
  /-- `MODE <- m`. -/
  | mode (m : Mode)
  /-- `row <- n` (REFRESH). -/
  | row (n : Nat)
  /-- `col <- n` (REFRESH). -/
  | col (n : Nat)
  /-- `addr <- a` (SET_CURSOR). -/
  | addr (a : Byte)
  deriving DecidableEq, Repr

/-- The sequencer (10_state R27): idle, or busy with a command at one of its steps. A step boundary inside a
command is seen only while the bus has not completed a byte (log 1). -/
inductive Seq
  | idle
  | busy (op : Instr) (step : Nat)
  deriving DecidableEq, Repr

/-- The working registers (10_state R30). The 18-bit signed ones are integers (10_state R31, log 4). -/
@[ext]
structure Work where
  fsync : Byte
  fval : Byte
  fidx : Fin 3
  x0 : Int
  y0 : Int
  x1 : Int
  y1 : Int
  steep : Bool
  deltax : Int
  deltay : Int
  err : Int
  ystep : Int
  x : Int
  y : Int
  cx : Int
  cy : Int
  e : Int
  row : Nat
  col : Nat
  addr : Byte
  deriving DecidableEq, Repr

/-- The contracts on the host whose breach the block does not stop at; a set flag is never cleared
(60_exceptions R203, R206, log 15, 30). -/
structure Contracts where
  /-- A command in a mode the table of 60_exceptions R205 does not allow. -/
  mode : Bool
  /-- SET_CURSOR with `col` outside 0 to 7 (41_mode R135, log 12). -/
  column : Bool
  /-- LINE with an endpoint off the screen (43_rasterizer_line R165, log 14). -/
  endpoint : Bool
  /-- CIRCLE with `radius < 0` (44_rasterizer_circle R183, log 13). -/
  radius : Bool
  /-- `rst_n` asserted while a command ran (70_reset R231, log 16). -/
  abandoned : Bool
  deriving DecidableEq, Repr

/-- What the outside world does next (log 8). -/
inductive Input
  /-- A command word is presented on the command port (10_state R34, 30_encoding R90). -/
  | word (w : CmdWord)
  /-- A command word is presented, and `rst_n` is asserted when the command has done `k` of its steps, or earlier
  where it waits for the bus, or after it has ended (70_reset R231, log 16). -/
  | wordCut (w : CmdWord) (k : Nat)
  /-- A word of an inner layer is run by itself, past the command port; the model's own entry (log 9). -/
  | inner (u : InnerWord)
  /-- The environment completes `n` more byte transfers (10_state R35). -/
  | busReady (n : Nat)
  /-- The environment completes `n` more byte transfers, and `rst_n` is asserted when the waiting command has done `k`
  more steps, or earlier where it waits again, or after it has ended (70_reset R231, log 16). -/
  | readyCut (n k : Nat)
  /-- `rst_n` is asserted and released now (70_reset R231). -/
  | resetPin
  deriving DecidableEq, Repr

/-- The bytes of `FB` that some command has written, as (index, byte) pairs, indexes strictly rising; a byte
not listed still has its power-on content (log 2). -/
abbrev Memory := List Host.Cell

/-- Everything the spec gives the block (10_state R20, R27, R30, R36), its parameters (00_scope R7), and the
environment's plain data (log 7, 8). -/
@[ext]
structure State where
  /-- Build-time parameters; no step changes them (log 5). -/
  cfg : Config
  /-- `FB` (10_state R21). -/
  fb : Memory
  /-- `MODE` (10_state R22). -/
  mode : Mode
  /-- `RSTLINE`, true = high (10_state R24). -/
  rstLine : Bool
  /-- `SEQ` (10_state R27). -/
  seq : Seq
  /-- The working registers (10_state R30). -/
  work : Work
  /-- The byte between `tx_start` and `tx_done` (10_state R36). -/
  inFlight : Option Byte
  /-- The output trace, oldest event first (00_scope R12). -/
  trace : List Event
  /-- What the outside world does next, in order (log 8). -/
  inputs : List Input
  /-- How many byte transfers the environment still completes; `none`: every one (10_state R36, log 7). -/
  bus : Option Nat
  /-- The sticky record of broken contracts (60_exceptions R206). -/
  contracts : Contracts
  deriving DecidableEq, Repr

/-- Why the machine stops. Both are safe: the spec gives the case no result (log 11). -/
inductive Fault
  /-- Raised by FB_SET at a pixel off the screen (42_framebuffer R147). Safe. -/
  | setOffScreen (x y : Int)
  /-- Raised by LINE at the first plotted point off the screen (43_rasterizer_line R165). Safe. -/
  | lineOffScreen (x y : Int)
  deriving DecidableEq, Repr

/-- Why a word has no meaning. All are safe: nothing follows from a refused word. -/
inductive Refusal
  /-- Raised by exec for an instruction without a meaning yet; no arm is left that raises it. Safe. -/
  | notModelled (mnemonic : String)
  /-- Raised by step for one of the 244 reserved opcodes (30_encoding R96). Safe. -/
  | reservedOpcode (op : Byte)
  /-- Raised by step for 24 bits that are no wire frame (30_encoding R84). Safe. -/
  | malformedFrame (w : FrameWord)
  /-- Raised by step for a byte that is no LCD instruction byte at its place (30_encoding R86). Safe. -/
  | unknownLcdByte (place : LcdPlace) (b : Byte)
  deriving DecidableEq, Repr

/-- The working registers at reset: the spec leaves them unspecified (10_state R39); DESIGN CHOICE 0 (log 4). -/
def Work.reset : Work where
  fsync := 0
  fval := 0
  fidx := 0
  x0 := 0
  y0 := 0
  x1 := 0
  y1 := 0
  steep := false
  deltax := 0
  deltay := 0
  err := 0
  ystep := 0
  x := 0
  y := 0
  cx := 0
  cy := 0
  e := 0
  row := 0
  col := 0
  addr := 0

/-- No contract broken yet (log 30). -/
def Contracts.clear : Contracts where
  mode := false
  column := false
  endpoint := false
  radius := false
  abandoned := false

/-- The power-on state (10_state R39, 70_reset R230): `MODE` Uninitialized, `SEQ` Idle, nothing in flight, trace
empty, no byte of `FB` written. `RSTLINE` low and the working registers zero are DESIGN CHOICES (log 3, 4);
nothing presented and a bus that completes every transfer are the environment's start (log 7, 8). -/
def State.reset : State where
  cfg := Config.default
  fb := []
  mode := .uninitialized
  rstLine := false
  seq := .idle
  work := Work.reset
  inFlight := none
  trace := []
  inputs := []
  bus := none
  contracts := Contracts.clear

end Sys2Proof.Machine
end

