-- ==== Sys2Proof/Machine/Operands.lean ====
section
/-! DEFINITION. Every operand the block computes (30_encoding R88): frame bytes, cursor address, row and bank
select, framebuffer index and mask; and the encoding of `MODE` (10_state R23). -/

namespace Sys2Proof.Machine

/-- Physical byte 1 of a frame, `v & 0xF0` (30_encoding R81, R83). -/
def highByte (v : Byte) : Byte := v &&& 0xF0

/-- Physical byte 2 of a frame, `(v << 4) & 0xF0` (30_encoding R81, R83). -/
def lowNibbleByte (v : Byte) : Byte := (v <<< 4) &&& 0xF0

/-- The logical byte of two nibbles, `h ++ l` (30_encoding R81). -/
def logicalByte (h l : Nibble) : Byte := h ++ l

/-- `(0x80 + col + (0x10 if line[0] = 1 else 0) + (0x08 if line[1] = 1 else 0)) mod 256` (30_encoding R88 b,
41_mode R133), `base` being `OP_CURSOR_BASE`. -/
def cursorAddr (base : Byte) (line : Field) (col : Int) : Byte :=
  base + BitVec.ofInt 8 col + (if line.getLsbD 0 then 0x10 else 0) + (if line.getLsbD 1 then 0x08 else 0)

/-- `OP_ROW_SELECT | (row & 0x1F)` (30_encoding R88 c). -/
def rowSelectByte (c : Config) (row : Nat) : Byte := c.opRowSelect ||| (BitVec.ofNat 8 row &&& 0x1F)

/-- `OP_BANK0` if `row < 32`, else `OP_BANK1` (30_encoding R88 d). -/
def bankSelectByte (c : Config) (row : Nat) : Byte := if row < 32 then c.opBank0 else c.opBank1

/-- `0 ≤ x < 128` and `0 ≤ y < 64`, four comparisons of signed integers (42_framebuffer R149). -/
def onScreen (x y : Int) : Bool := 0 ≤ x && x < 128 && 0 ≤ y && y < 64

/-- Byte index `y*16 + (x>>3)` (20_memory R51), used on the screen only. -/
def pixelIndex (x y : Int) : Nat := (y * 16 + x / 8).toNat

/-- Bit mask `0x80 >> (x&7)` (20_memory R51, 42_framebuffer R146), used on the screen only. -/
def pixelMask (x : Int) : Byte := (0x80 : Byte) >>> (x % 8).toNat

/-- The two bits that hold `MODE` (10_state R23). -/
def Mode.bits : Mode → BitVec 2
  | .uninitialized => 0b00
  | .text => 0b01
  | .graphics => 0b10

end Sys2Proof.Machine
end

