-- ==== Sys2Proof/Machine/Flags.lean ====
section
/-! DEFINITION. The block has no condition codes (10_state R28). Here are the one-bit conditions it does have, the
ports that are functions of the state (10_state R33, log 29), and the conditions of the host's contracts
(60_exceptions R205). -/

namespace Sys2Proof.Machine

/-- `busy`: `SEQ ≠ Idle` (10_state R28). -/
def State.busy (s : State) : Bool := s.seq != .idle

/-- Port `cmd_ready`, 1 iff `SEQ = Idle` (10_state R33). -/
def State.cmdReady (s : State) : Bool := !s.busy

/-- The word an input brings, if it brings one. -/
def Input.carried : Input → Option Encoded
  | .word w => some (.command w)
  | .wordCut w _ => some (.command w)
  | .inner u => some (.inner u)
  | .busReady _ => none
  | .readyCut _ _ => none
  | .resetPin => none

/-- Whether `rst_n` is asserted as part of an input. -/
def Input.pulses : Input → Bool
  | .word _ => false
  | .wordCut _ _ => true
  | .inner _ => false
  | .busReady _ => false
  | .readyCut _ _ => true
  | .resetPin => true

/-- How a word comes in: a command word on the port, a word of an inner layer past it (log 9). -/
def present : Encoded → Input
  | .command w => .word w
  | .inner u => .inner u

/-- The first command word the host has still to hand over. -/
def firstWord : List Input → Option CmdWord
  | [] => none
  | .word w :: _ => some w
  | .wordCut w _ :: _ => some w
  | .inner _ :: rest => firstWord rest
  | .busReady _ :: rest => firstWord rest
  | .readyCut _ _ :: rest => firstWord rest
  | .resetPin :: rest => firstWord rest

/-- Ports `cmd_valid` and `cmd_word[71:0]`: the word on the command port, if any (10_state R33, 30_encoding R90). -/
def State.cmdWord (s : State) : Option CmdWord := firstWord s.inputs

/-- Port `tx_byte`: the physical byte being transferred (10_state R33). -/
def State.txByte (s : State) : Option Byte := s.inFlight

/-- Port `lcd_rst_n`, equal to `RSTLINE` (10_state R33). -/
def State.lcdRstN (s : State) : Bool := s.rstLine

/-- `steep`: `|y1 - y0| > |x1 - x0|`, strictly (43_rasterizer_line R160). -/
def steepOf (x0 y0 x1 y1 : Int) : Bool := (y1 - y0).natAbs > (x1 - x0).natAbs

/-- The mode contract of every instruction (60_exceptions R205); frames and LCD bytes have none. -/
def modeLegal (i : Instr) (m : Mode) : Bool :=
  match i with
  | .sendInstr _ => true
  | .sendData _ => true
  | .reset => true
  | .clearText => m == .text
  | .enterGraphics => m == .text
  | .setCursor _ _ => m == .text
  | .fbClear => true
  | .fbSet _ _ => true
  | .fbSetChecked _ _ => true
  | .line _ _ _ _ => true
  | .circle _ _ _ => true
  | .refresh => m == .graphics
  | .frameInstr _ _ => true
  | .frameData _ _ => true
  | .lcdFuncBasic => true
  | .lcdDisplayOn => true
  | .lcdClear => true
  | .lcdEntryMode => true
  | .lcdFuncExt => true
  | .lcdFuncExtGfx => true
  | .lcdCursorAddr _ _ _ => true
  | .lcdRowSelect _ => true
  | .lcdBankSelect _ => true

/-- `0 ≤ col ≤ 7` (41_mode R135). -/
def columnLegal (col : Int) : Bool := 0 ≤ col && col ≤ 7

/-- Both endpoints on the screen (43_rasterizer_line R160). -/
def endpointsLegal (x0 y0 x1 y1 : Int) : Bool := onScreen x0 y0 && onScreen x1 y1

/-- `radius ≥ 0` (44_rasterizer_circle R183). -/
def radiusLegal (radius : Int) : Bool := 0 ≤ radius

end Sys2Proof.Machine
end

