-- ==== Sys2Proof/Machine/Ops.lean ====
section
/-! DEFINITION. The shared operations: reading and writing `FB` (20_memory), plotting (42_framebuffer), the
primitive `Frame` (40_bus R110), running a command's steps as far as the bus lets them (10_state R36), the record
of broken contracts (60_exceptions R206), the pin `rst_n` (70_reset R231). The block has no exception to take and
none to return from (60_exceptions R200, R204). -/

namespace Sys2Proof.Machine

/-! ## The framebuffer (20_memory R50 to R60) -/

/-- The byte some command has written at index `i`, if any. -/
def Memory.stored : Memory → Nat → Option Byte
  | [], _ => none
  | (j, v) :: rest, i => if i = j then some v else Memory.stored rest i

/-- `FB[i]`: the last value written, or the power-on value if none (20_memory R67 a, log 2). -/
def Memory.read (m : Memory) (i : Nat) : Byte := (m.stored i).getD (Config.powerOnByte i)

/-- `FB[i] <- v`; keeps the indexes strictly rising. -/
def Memory.write : Memory → Nat → Byte → Memory
  | [], i, v => [(i, v)]
  | (j, u) :: rest, i, v =>
    if i < j then (i, v) :: (j, u) :: rest
    else if i = j then (i, v) :: rest
    else (j, u) :: Memory.write rest i v

/-- `FB[i] <- 0` for `i` from 0 below `k`, in this order (42_framebuffer R150, log 27). -/
def clearFirst : Nat → Memory → Memory
  | 0, m => m
  | k + 1, m => (clearFirst k m).write k 0

/-- All 1024 bytes zero, what the writes of FB_CLEAR leave in whatever order (42_framebuffer R150, log 27). -/
def Memory.zeroed : Memory := (List.range 1024).map fun i => (i, 0)

/-- Indexes strictly rising. -/
def Memory.rising : Memory → Bool
  | [] => true
  | [_] => true
  | (i, _) :: (j, v) :: rest => i < j && Memory.rising ((j, v) :: rest)

/-- The canonical form: indexes strictly rising and below 1024 (10_state R21). A byte written with the value it
had at power-on stays listed, since that value is free (log 2). -/
def Memory.wf (m : Memory) : Bool := Memory.rising m && m.all fun c => c.1 < 1024

/-- `FbGet(FB, x, y)`, for pixels on the screen (20_memory R54); not a command. -/
def fbGet (m : Memory) (x y : Int) : Bool := m.read (pixelIndex x y) &&& pixelMask x != 0

/-- The body of FB_SET: `FB[i] <- FB[i] | mask` (42_framebuffer R145), for pixels on the screen only. -/
def setPixel (m : Memory) (x y : Int) : Memory :=
  m.write (pixelIndex x y) (m.read (pixelIndex x y) ||| pixelMask x)

/-- FB_SET_CHECKED: set if on the screen, else nothing (42_framebuffer R148). -/
def plotChecked (m : Memory) (x y : Int) : Memory := if onScreen x y then setPixel m x y else m

/-- Points through the checked setter, in order. -/
def plotVisible (points : List (Int × Int)) (m : Memory) : Memory :=
  points.foldl (fun m p => plotChecked m p.1 p.2) m

/-- Points through the unchecked setter, in order, up to the first one off the screen, which is the error
(43_rasterizer_line R165). -/
def plotUnchecked : List (Int × Int) → Memory → Except (Int × Int) Memory
  | [], m => .ok m
  | p :: rest, m => if onScreen p.1 p.2 then plotUnchecked rest (setPixel m p.1 p.2) else .error p

/-! ## The sequencer's steps -/

/-- `Frame(s, v)` (40_bus R110): three transfers and the settle hold (R114). -/
def frameActs (sync v : Byte) : List Act :=
  [.load sync v, .byte 0 sync, .byte 1 (highByte v), .byte 2 (lowNibbleByte v), .hold .settle]

/-- The event a step leaves in the trace, once complete. -/
def Act.event : Act → Option Event
  | .load _ _ => none
  | .byte _ v => some (.byte v)
  | .hold t => some (.hold t)
  | .rst level => some (.rst level)
  | .mode _ => none
  | .row _ => none
  | .col _ => none
  | .addr _ => none

/-- The byte a step transfers, if it uses the bus. -/
def Act.transfer : Act → Option Byte
  | .byte _ v => some v
  | .load _ _ => none
  | .hold _ => none
  | .rst _ => none
  | .mode _ => none
  | .row _ => none
  | .col _ => none
  | .addr _ => none

/-- What a completed step does to the registers; a transfer uses up one completion of the bus. -/
def applyAct (s : State) (a : Act) : State :=
  match a with
  | .load sync val => { s with work := { s.work with fsync := sync, fval := val, fidx := 0 } }
  | .byte k _ => { s with work := { s.work with fidx := k + 1 }, bus := s.bus.map (· - 1) }
  | .hold _ => s
  | .rst level => { s with rstLine := level }
  | .mode m => { s with mode := m }
  | .row n => { s with work := { s.work with row := n } }
  | .col n => { s with work := { s.work with col := n } }
  | .addr b => { s with work := { s.work with addr := b } }

/-- Completed steps in order: registers, and the events appended to the trace (20_memory R67 b). -/
def runActs (acts : List Act) (s : State) : State :=
  { acts.foldl applyAct s with trace := s.trace ++ acts.filterMap Act.event }

/-- How many steps complete before one waits for a completion that does not come (10_state R36). -/
def reach : Option Nat → List Act → Nat
  | _, [] => 0
  | bus, a :: rest =>
    match a.transfer, bus with
    | some _, some 0 => 0
    | some _, some (c + 1) => reach (some c) rest + 1
    | some _, none => reach none rest + 1
    | none, bus => reach bus rest + 1

/-- Complete `k` more steps of command `op`, of which `n` are done and `acts` remain: `SEQ = Idle` if these are all,
else `SEQ = Busy(op, operands, step)`, a byte in flight if the next step transfers one (10_state R27, R36). -/
def State.advance (s : State) (op : Instr) (n k : Nat) (acts : List Act) : State :=
  let t := runActs (acts.take k) s
  match acts.drop k with
  | [] => { t with seq := .idle, inFlight := none }
  | a :: _ => { t with seq := .busy op (n + k), inFlight := a.transfer }

/-- Run command `op` to its end or to the first transfer that does not complete (10_state R36). -/
def State.proceed (s : State) (op : Instr) (n : Nat) (acts : List Act) : State :=
  s.advance op n (reach s.bus acts) acts

/-- The same, but for at most `k` steps: where the command stands when `rst_n` lands (70_reset R231). -/
def State.proceedWithin (s : State) (op : Instr) (n k : Nat) (acts : List Act) : State :=
  s.advance op n (min k (reach s.bus acts)) acts

/-- The number of byte transfers in a list of steps. -/
def transfers (acts : List Act) : Nat := (acts.filterMap Act.transfer).length

/-- The environment completes at least `n` more transfers: the premise "every started transfer completes", for
`n` transfers (10_state R36, log 7). -/
def State.busAllows (s : State) (n : Nat) : Bool :=
  match s.bus with
  | none => true
  | some c => n ≤ c

/-! ## The record of broken contracts (60_exceptions R203, R206) -/

/-- Record the mode contract of `i`, checked at acceptance (60_exceptions R203, R205). -/
def State.noteMode (s : State) (i : Instr) : State :=
  { s with contracts := { s.contracts with mode := s.contracts.mode || !modeLegal i s.mode } }

/-- Record the contract `0 ≤ col ≤ 7` (41_mode R135). -/
def State.noteColumn (s : State) (col : Int) : State :=
  { s with contracts := { s.contracts with column := s.contracts.column || !columnLegal col } }

/-- Record the contract on LINE's endpoints (43_rasterizer_line R165). -/
def State.noteEndpoints (s : State) (x0 y0 x1 y1 : Int) : State :=
  { s with contracts :=
      { s.contracts with endpoint := s.contracts.endpoint || !endpointsLegal x0 y0 x1 y1 } }

/-- Record the contract `radius ≥ 0` (44_rasterizer_circle R183). -/
def State.noteRadius (s : State) (radius : Int) : State :=
  { s with contracts := { s.contracts with radius := s.contracts.radius || !radiusLegal radius } }

/-- Record the operand contract of `i`, checked at acceptance after the mode's (60_exceptions R203). -/
def State.noteOperands (s : State) (i : Instr) : State :=
  match i with
  | .sendInstr _ => s
  | .sendData _ => s
  | .reset => s
  | .clearText => s
  | .enterGraphics => s
  | .setCursor _ col => s.noteColumn col
  | .fbClear => s
  | .fbSet _ _ => s
  | .fbSetChecked _ _ => s
  | .line x0 y0 x1 y1 => s.noteEndpoints x0 y0 x1 y1
  | .circle _ _ radius => s.noteRadius radius
  | .refresh => s
  | .frameInstr _ _ => s
  | .frameData _ _ => s
  | .lcdFuncBasic => s
  | .lcdDisplayOn => s
  | .lcdClear => s
  | .lcdEntryMode => s
  | .lcdFuncExt => s
  | .lcdFuncExtGfx => s
  | .lcdCursorAddr _ _ _ => s
  | .lcdRowSelect _ => s
  | .lcdBankSelect _ => s

/-- A command as accepted, before its first step (60_exceptions R203). -/
def State.accepted (s : State) (i : Instr) : State := (s.noteMode i).noteOperands i

/-- No contract fault recorded: the premise of every claim about the device (60_exceptions R206). -/
def State.noContractFault (s : State) : Bool := s.contracts == Contracts.clear

/-! ## The environment -/

/-- The environment completes `n` more transfers (10_state R35). -/
def State.grant (s : State) (n : Nat) : State := { s with bus := s.bus.map (· + n) }

/-- `rst_n` asserted and released: a running command is abandoned, the power-on state of 70_reset R230 is reached
except that `FB`, `RSTLINE` and the trace keep what they had (70_reset R231, log 16). -/
def State.blockReset (s : State) : State :=
  { s with
    mode := .uninitialized
    seq := .idle
    inFlight := none
    contracts := { s.contracts with abandoned := s.contracts.abandoned || s.busy } }

end Sys2Proof.Machine
end

