-- ==== Sys2Proof/Machine/Circle.lean ====
section
/-! DEFINITION. Rasterizer, midpoint circle (44_rasterizer_circle). -/

namespace Sys2Proof.Machine

/-- `Plot4(cx, cy, a, b)`'s points (44_rasterizer_circle R177). -/
def plot4 (cx cy a b : Int) : List (Int × Int) :=
  [(cx + a, cy + b), (cx - a, cy + b), (cx + a, cy - b), (cx - a, cy - b)]

/-- `Plot8(cx, cy, x, y)`'s points (44_rasterizer_circle R177, log 27). -/
def plot8 (cx cy x y : Int) : List (Int × Int) := plot4 cx cy x y ++ plot4 cx cy y x

/-- `x <- radius ; y <- 0 ; e <- -radius`, and the centre (44_rasterizer_circle R176). -/
def circleStart (cx cy radius : Int) (w : Work) : Work :=
  { w with cx := cx, cy := cy, x := radius, y := 0, e := -radius }

/-- `while x > y`. -/
def circleGoes (w : Work) : Bool := w.x > w.y

/-- What `e` loses when `x` steps in, from the old `x`: `2*(x-1)` in variant A, `2*x - 1` in variant B
(44_rasterizer_circle R178, log 6). -/
def circleDrop (v : CircleStep) (x : Int) : Int :=
  match v with
  | .variantA => 2 * (x - 1)
  | .variantB => 2 * x - 1

/-- One iteration after its Plot8 (44_rasterizer_circle R176). -/
def circleNext (v : CircleStep) (w : Work) : Work :=
  let e := w.e + 2 * w.y + 1
  if e ≥ 0 then { w with y := w.y + 1, x := w.x - 1, e := e - circleDrop v w.x }
  else { w with y := w.y + 1, e := e }

/-- The points of the loop, at most `n` iterations. -/
def circlePoints (v : CircleStep) : Nat → Work → List (Int × Int)
  | 0, _ => []
  | n + 1, w =>
    if circleGoes w then plot8 w.cx w.cy w.x w.y ++ circlePoints v n (circleNext v w) else []

/-- The registers at loop exit, after at most `n` iterations. -/
def circleAfter (v : CircleStep) : Nat → Work → Work
  | 0, w => w
  | n + 1, w => if circleGoes w then circleAfter v n (circleNext v w) else w

/-- The points CIRCLE plots, in order: those of its loop, then the last Plot4. The loop ends after at most `radius`
iterations (44_rasterizer_circle R179). -/
def circleDrawn (v : CircleStep) (cx cy radius : Int) (w : Work) : List (Int × Int) :=
  let start := circleStart cx cy radius w
  let last := circleAfter v radius.toNat start
  circlePoints v radius.toNat start ++ plot4 last.cx last.cy last.x last.y

/-- CIRCLE `cx, cy, radius` (44_rasterizer_circle R176); a negative radius runs as the pseudocode gives and is
recorded (R183, log 13). -/
def execCircle (cx cy radius : Int) (s : State) : Host.Outcome State Fault Refusal :=
  let v := s.cfg.circleStep
  .next { s.noteRadius radius with
    fb := plotVisible (circleDrawn v cx cy radius s.work) s.fb
    work := circleAfter v radius.toNat (circleStart cx cy radius s.work) }

end Sys2Proof.Machine
end

