-- ==== Sys2Proof/Machine/Framebuffer.lean ====
section
/-! DEFINITION. Framebuffer (42_framebuffer): FB_CLEAR, FB_SET, FB_SET_CHECKED. -/

namespace Sys2Proof.Machine

/-- FB_CLEAR (42_framebuffer R150). -/
def execFbClear (s : State) : Host.Outcome State Fault Refusal := .next { s with fb := Memory.zeroed }

/-- FB_SET `x, y` (42_framebuffer R145); off the screen there is no result (R147, log 11). -/
def execFbSet (x y : Int) (s : State) : Host.Outcome State Fault Refusal :=
  if onScreen x y then .next { s with fb := setPixel s.fb x y } else .fault (.setOffScreen x y)

/-- FB_SET_CHECKED `x, y` (42_framebuffer R148). -/
def execFbSetChecked (x y : Int) (s : State) : Host.Outcome State Fault Refusal :=
  .next { s with fb := plotChecked s.fb x y }

end Sys2Proof.Machine
end

