-- ==== Sys2Proof/Machine/LcdBytes.lean ====
section
/-! DEFINITION. The LCD instruction bytes (30_encoding R86), each sent by itself as one instruction frame (log 9).
The byte is the parameter's, whose default is the table's encoding (log 5). -/

namespace Sys2Proof.Machine

/-- The logical byte of LCD_CURSOR_ADDR, with `a = line[0]`, `b = line[1]`, `c = col` (41_mode R134). -/
def lcdCursorByte (cfg : Config) (a b : BitVec 1) (c : BitVec 3) : Byte :=
  cursorAddr cfg.opCursorBase ((b ++ a).setWidth 16) c.toNat

/-- LCD_FUNC_BASIC: "8-bit basic instruction" function set (30_encoding R86). -/
def execLcdFuncBasic (s : State) : Host.Outcome State Fault Refusal :=
  .next (s.proceed .lcdFuncBasic 0 (frameActs syncInstr s.cfg.opFuncBasic))

/-- LCD_DISPLAY_ON (30_encoding R86). -/
def execLcdDisplayOn (s : State) : Host.Outcome State Fault Refusal :=
  .next (s.proceed .lcdDisplayOn 0 (frameActs syncInstr s.cfg.opDisplayOn))

/-- LCD_CLEAR: the byte alone; the extra hold belongs to the command CLEAR_TEXT (41_mode R129, 70_reset R246). -/
def execLcdClear (s : State) : Host.Outcome State Fault Refusal :=
  .next (s.proceed .lcdClear 0 (frameActs syncInstr s.cfg.opClear))

/-- LCD_ENTRY_MODE (30_encoding R86). -/
def execLcdEntryMode (s : State) : Host.Outcome State Fault Refusal :=
  .next (s.proceed .lcdEntryMode 0 (frameActs syncInstr s.cfg.opEntryMode))

/-- LCD_FUNC_EXT (30_encoding R86). -/
def execLcdFuncExt (s : State) : Host.Outcome State Fault Refusal :=
  .next (s.proceed .lcdFuncExt 0 (frameActs syncInstr s.cfg.opFuncExt))

/-- LCD_FUNC_EXT_GFX (30_encoding R86); `MODE` is written by the command ENTER_GRAPHICS only (10_state R22). -/
def execLcdFuncExtGfx (s : State) : Host.Outcome State Fault Refusal :=
  .next (s.proceed .lcdFuncExtGfx 0 (frameActs syncInstr s.cfg.opFuncExtGfx))

/-- LCD_CURSOR_ADDR `100abccc` (30_encoding R86). -/
def execLcdCursorAddr (a b : BitVec 1) (c : BitVec 3) (s : State) : Host.Outcome State Fault Refusal :=
  .next (s.proceed (.lcdCursorAddr a b c) 0 (frameActs syncInstr (lcdCursorByte s.cfg a b c)))

/-- LCD_ROW_SELECT `100rrrrr`, `r = row[4:0]` (30_encoding R86). -/
def execLcdRowSelect (r : BitVec 5) (s : State) : Host.Outcome State Fault Refusal :=
  .next (s.proceed (.lcdRowSelect r) 0 (frameActs syncInstr (rowSelectByte s.cfg r.toNat)))

/-- LCD_BANK_SELECT `1000k000`, `k = row[5]` (30_encoding R86). -/
def execLcdBankSelect (k : BitVec 1) (s : State) : Host.Outcome State Fault Refusal :=
  .next (s.proceed (.lcdBankSelect k) 0 (frameActs syncInstr (bankSelectByte s.cfg (k.toNat * 32))))

end Sys2Proof.Machine
end

