-- ==== Sys2Proof/Machine/Line.lean ====
section
/-! DEFINITION. Rasterizer, Bresenham line (43_rasterizer_line). The loop is split into its registers' course
(`lineNext`) and the points it plots (`linePoints`); the plotting is `plotUnchecked`. -/

namespace Sys2Proof.Machine

/-- LINE's registers before the loop: the two conditional exchanges, `deltax`, `deltay`, `err`, `ystep`, `x`, `y`
(43_rasterizer_line R160, log 26). -/
def lineStart (x0 y0 x1 y1 : Int) (w : Work) : Work :=
  let steep := steepOf x0 y0 x1 y1
  let (x0, y0, x1, y1) := if steep then (y0, x0, y1, x1) else (x0, y0, x1, y1)
  let (x0, y0, x1, y1) := if x0 > x1 then (x1, y1, x0, y0) else (x0, y0, x1, y1)
  { w with
    x0 := x0, y0 := y0, x1 := x1, y1 := y1, steep := steep
    deltax := x1 - x0
    deltay := (y1 - y0).natAbs
    err := (x1 - x0) / 2
    ystep := if y0 < y1 then 1 else -1
    y := y0
    x := x0 }

/-- The pixel an iteration plots, roles swapped back for a steep line (43_rasterizer_line R160). -/
def linePoint (w : Work) : Int × Int := if w.steep then (w.y, w.x) else (w.x, w.y)

/-- The rest of one iteration: `err`, `y` and `x` (43_rasterizer_line R160). -/
def lineNext (w : Work) : Work :=
  let err := w.err - w.deltay
  if err < 0 then { w with y := w.y + w.ystep, err := err + w.deltax, x := w.x + 1 }
  else { w with err := err, x := w.x + 1 }

/-- The points of `n` iterations, in order. -/
def linePoints : Nat → Work → List (Int × Int)
  | 0, _ => []
  | n + 1, w => linePoint w :: linePoints n (lineNext w)

/-- The registers after `n` iterations. -/
def lineAfter : Nat → Work → Work
  | 0, w => w
  | n + 1, w => lineAfter n (lineNext w)

/-- How often `while x != x1` runs: `x` starts at `x0 ≤ x1` and rises by one (43_rasterizer_line R164). -/
def lineCount (w : Work) : Nat := w.deltax.toNat

/-- The points LINE plots, in order. -/
def lineDrawn (x0 y0 x1 y1 : Int) (w : Work) : List (Int × Int) :=
  let start := lineStart x0 y0 x1 y1 w
  linePoints (lineCount start) start

/-- LINE `x0, y0, x1, y1` (43_rasterizer_line R160): runs as far as its points are on the screen; the first one
off it leaves no result (R165, log 11). An endpoint off the screen is recorded (log 14). -/
def execLine (x0 y0 x1 y1 : Int) (s : State) : Host.Outcome State Fault Refusal :=
  let w := lineStart x0 y0 x1 y1 s.work
  match plotUnchecked (lineDrawn x0 y0 x1 y1 s.work) s.fb with
  | .ok m => .next { s.noteEndpoints x0 y0 x1 y1 with fb := m, work := lineAfter (lineCount w) w }
  | .error p => .fault (.lineOffScreen p.1 p.2)

end Sys2Proof.Machine
end

