-- ==== Sys2Proof/Machine/ModeReset.lean ====
section
/-! DEFINITION. Mode & Reset Controller (41_mode_reset): RESET, CLEAR_TEXT, ENTER_GRAPHICS, SET_CURSOR. -/

namespace Sys2Proof.Machine

/-- `Frame(0xF8, OP_CLEAR) ; emit HOLD(T_CLEAR)` (41_mode R129). -/
def clearTextActs (c : Config) : List Act := frameActs syncInstr c.opClear ++ [.hold .clear]

/-- The pseudocode of RESET (41_mode R125); the text clear inside is that of CLEAR_TEXT (R128). -/
def resetActs (c : Config) : List Act :=
  [.rst false, .hold .rstLow, .rst true, .hold .rstHigh] ++
    frameActs syncInstr c.opFuncBasic ++ frameActs syncInstr c.opFuncBasic ++
    frameActs syncInstr c.opDisplayOn ++ clearTextActs c ++ frameActs syncInstr c.opEntryMode ++
    [.mode .text]

/-- `Frame(0xF8, OP_FUNC_EXT) ; Frame(0xF8, OP_FUNC_EXT_GFX) ; MODE <- Graphics` (41_mode R131). -/
def enterGraphicsActs (c : Config) : List Act :=
  frameActs syncInstr c.opFuncExt ++ frameActs syncInstr c.opFuncExtGfx ++ [.mode .graphics]

/-- The pseudocode of SET_CURSOR (41_mode R133). -/
def setCursorActs (c : Config) (line : Field) (col : Int) : List Act :=
  let a := cursorAddr c.opCursorBase line col
  .addr a :: frameActs syncInstr a

/-- RESET (41_mode R125): legal in every mode; `FB` untouched; `MODE` written last. -/
def execReset (s : State) : Host.Outcome State Fault Refusal :=
  .next (s.proceed .reset 0 (resetActs s.cfg))

/-- CLEAR_TEXT (41_mode R129); the mode contract is recorded, not checked (60_exceptions R206). -/
def execClearText (s : State) : Host.Outcome State Fault Refusal :=
  .next ((s.noteMode .clearText).proceed .clearText 0 (clearTextActs s.cfg))

/-- ENTER_GRAPHICS (41_mode R131, R137); `MODE` is written whatever it was. -/
def execEnterGraphics (s : State) : Host.Outcome State Fault Refusal :=
  .next ((s.noteMode .enterGraphics).proceed .enterGraphics 0 (enterGraphicsActs s.cfg))

/-- SET_CURSOR `line, col` (41_mode R133); outside `0 ≤ col ≤ 7` as the pseudocode gives (R135, log 12). Mode
contract first, operand contract second (60_exceptions R203). -/
def execSetCursor (line : Field) (col : Int) (s : State) : Host.Outcome State Fault Refusal :=
  .next (((s.noteMode (.setCursor line col)).noteColumn col).proceed (.setCursor line col) 0
    (setCursorActs s.cfg line col))

end Sys2Proof.Machine
end

