-- ==== Sys2Proof/Machine/Refresh.lean ====
section
/-! DEFINITION. Refresh Pump (45_refresh_pump): REFRESH. -/

namespace Sys2Proof.Machine

/-- `Frame(0xFA, FB[row*16 + col])` (45_refresh_pump R190). -/
def refreshColumnActs (m : Memory) (row col : Nat) : List Act :=
  .col col :: frameActs syncData (m.read (row * 16 + col))

/-- One row: row-select frame, bank-select frame, sixteen data frames (45_refresh_pump R190). -/
def refreshRowActs (c : Config) (m : Memory) (row : Nat) : List Act :=
  .row row :: frameActs syncInstr (rowSelectByte c row) ++ frameActs syncInstr (bankSelectByte c row) ++
    (List.range 16).flatMap (refreshColumnActs m row) ++ [.col 16]

/-- `for row from 0 to 63` (45_refresh_pump R190). -/
def refreshActs (c : Config) (m : Memory) : List Act :=
  (List.range 64).flatMap (refreshRowActs c m) ++ [.row 64]

/-- REFRESH (45_refresh_pump R190); `FB` is only read, the mode contract is recorded (60_exceptions R206). -/
def execRefresh (s : State) : Host.Outcome State Fault Refusal :=
  .next ((s.noteMode .refresh).proceed .refresh 0 (refreshActs s.cfg s.fb))

end Sys2Proof.Machine
end

