-- ==== Sys2Proof/Machine/Transport.lean ====
section
/-! DEFINITION. Bus Transport (40_bus_transport): SEND_INSTR, SEND_DATA, and the two wire frames of 30_encoding R81
run by themselves (log 9). -/

namespace Sys2Proof.Machine

/-- `Frame(0xF8, byte)` (40_bus R112). -/
def sendInstrActs (byte : Byte) : List Act := frameActs syncInstr byte

/-- `Frame(0xFA, byte)` (40_bus R113). -/
def sendDataActs (byte : Byte) : List Act := frameActs syncData byte

/-- FRAME_INSTR (30_encoding R81). -/
def frameInstrActs (h l : Nibble) : List Act := frameActs syncInstr (logicalByte h l)

/-- FRAME_DATA (30_encoding R81). -/
def frameDataActs (h l : Nibble) : List Act := frameActs syncData (logicalByte h l)

/-- SEND_INSTR `byte` (40_bus R112). -/
def execSendInstr (byte : Byte) (s : State) : Host.Outcome State Fault Refusal :=
  .next (s.proceed (.sendInstr byte) 0 (sendInstrActs byte))

/-- SEND_DATA `byte` (40_bus R113). -/
def execSendData (byte : Byte) (s : State) : Host.Outcome State Fault Refusal :=
  .next (s.proceed (.sendData byte) 0 (sendDataActs byte))

/-- FRAME_INSTR `h, l` (30_encoding R81, 40_bus R110). -/
def execFrameInstr (h l : Nibble) (s : State) : Host.Outcome State Fault Refusal :=
  .next (s.proceed (.frameInstr h l) 0 (frameInstrActs h l))

/-- FRAME_DATA `h, l` (30_encoding R81, 40_bus R110). -/
def execFrameData (h l : Nibble) (s : State) : Host.Outcome State Fault Refusal :=
  .next (s.proceed (.frameData h l) 0 (frameDataActs h l))

end Sys2Proof.Machine
end

