-- ==== Sys2Proof/Machine/Program.lean ====
section
/-! DEFINITION. The steps of a command that waits for the bus, looked up again from `SEQ = Busy(op, operands, step)`
when the bus moves on (10_state R27, R36), and the parts of step that a host word or a pin asks for. -/

namespace Sys2Proof.Machine

/-- The steps of `op`, under the parameters and the framebuffer, neither of which changes while it runs
(45_refresh_pump R196). A command that uses no bus has none. -/
def program (op : Instr) (c : Config) (m : Memory) : List Act :=
  match op with
  | .sendInstr byte => sendInstrActs byte
  | .sendData byte => sendDataActs byte
  | .reset => resetActs c
  | .clearText => clearTextActs c
  | .enterGraphics => enterGraphicsActs c
  | .setCursor line col => setCursorActs c line col
  | .fbClear => []
  | .fbSet _ _ => []
  | .fbSetChecked _ _ => []
  | .line _ _ _ _ => []
  | .circle _ _ _ => []
  | .refresh => refreshActs c m
  | .frameInstr h l => frameInstrActs h l
  | .frameData h l => frameDataActs h l
  | .lcdFuncBasic => frameActs syncInstr c.opFuncBasic
  | .lcdDisplayOn => frameActs syncInstr c.opDisplayOn
  | .lcdClear => frameActs syncInstr c.opClear
  | .lcdEntryMode => frameActs syncInstr c.opEntryMode
  | .lcdFuncExt => frameActs syncInstr c.opFuncExt
  | .lcdFuncExtGfx => frameActs syncInstr c.opFuncExtGfx
  | .lcdCursorAddr a b col => frameActs syncInstr (lcdCursorByte c a b col)
  | .lcdRowSelect r => frameActs syncInstr (rowSelectByte c r.toNat)
  | .lcdBankSelect k => frameActs syncInstr (bankSelectByte c (k.toNat * 32))

/-- Go on with a command of which `n` steps are done. -/
def State.resume (s : State) (op : Instr) (n : Nat) : State :=
  s.proceed op n ((program op s.cfg s.fb).drop n)

/-- The same for at most `k` more steps (70_reset R231). -/
def State.resumeWithin (s : State) (op : Instr) (n k : Nat) : State :=
  s.proceedWithin op n k ((program op s.cfg s.fb).drop n)

/-- What the environment does while a command waits: the first completion or pin event in the list; words keep
waiting their turn, in order (10_state R34, log 8). -/
def takeEvent : List Input → Option (Input × List Input)
  | [] => none
  | i :: rest =>
    if i.carried.isSome then
      match takeEvent rest with
      | none => none
      | some (ev, rest') => some (ev, i :: rest')
    else some (i, rest)

/-- Command `op`, of which `n` steps are done, goes on after an event of the environment. -/
def State.event (s : State) (op : Instr) (n : Nat) (ev : Input) : State :=
  match ev with
  | .word _ => s
  | .wordCut _ _ => s
  | .inner _ => s
  | .busReady c => (s.grant c).resume op n
  | .readyCut c k => ((s.grant c).resumeWithin op n k).blockReset
  | .resetPin => s.blockReset

/-- One step while `SEQ = Busy(op, operands, n)`: an event of the environment, if there is one, then as far as the
bus and the pin let it go; with none the block polls on (10_state R36, log 20). -/
def State.busyStep (s : State) (op : Instr) (n : Nat) : State :=
  match takeEvent s.inputs with
  | none => s.resume op n
  | some (ev, rest) => { s with inputs := rest }.event op n ev

/-- The refusal of a word that has no instruction (30_encoding R96). -/
def refusalOf : DecodeError → Refusal
  | .reservedOpcode op => .reservedOpcode op
  | .malformedFrame w => .malformedFrame w
  | .unknownLcdByte place b => .unknownLcdByte place b

end Sys2Proof.Machine
end

