-- ==== Sys2Proof/Machine/Dispatch.lean ====
section
/-! DEFINITION. One arm per row of spec/opcode_table.json. -/

namespace Sys2Proof.Machine

def exec (i : Instr) (s : State) : Host.Outcome State Fault Refusal :=
  match i with
  | .sendInstr byte => Sys2Proof.Machine.execSendInstr byte s
  | .sendData byte => Sys2Proof.Machine.execSendData byte s
  | .reset => Sys2Proof.Machine.execReset s
  | .clearText => Sys2Proof.Machine.execClearText s
  | .enterGraphics => Sys2Proof.Machine.execEnterGraphics s
  | .setCursor line col => Sys2Proof.Machine.execSetCursor line col s
  | .fbClear => Sys2Proof.Machine.execFbClear s
  | .fbSet x y => Sys2Proof.Machine.execFbSet x y s
  | .fbSetChecked x y => Sys2Proof.Machine.execFbSetChecked x y s
  | .line x0 y0 x1 y1 => Sys2Proof.Machine.execLine x0 y0 x1 y1 s
  | .circle cx cy radius => Sys2Proof.Machine.execCircle cx cy radius s
  | .refresh => Sys2Proof.Machine.execRefresh s
  | .frameInstr h l => Sys2Proof.Machine.execFrameInstr h l s
  | .frameData h l => Sys2Proof.Machine.execFrameData h l s
  | .lcdFuncBasic => Sys2Proof.Machine.execLcdFuncBasic s
  | .lcdDisplayOn => Sys2Proof.Machine.execLcdDisplayOn s
  | .lcdClear => Sys2Proof.Machine.execLcdClear s
  | .lcdEntryMode => Sys2Proof.Machine.execLcdEntryMode s
  | .lcdFuncExt => Sys2Proof.Machine.execLcdFuncExt s
  | .lcdFuncExtGfx => Sys2Proof.Machine.execLcdFuncExtGfx s
  | .lcdCursorAddr a b c => Sys2Proof.Machine.execLcdCursorAddr a b c s
  | .lcdRowSelect r => Sys2Proof.Machine.execLcdRowSelect r s
  | .lcdBankSelect k => Sys2Proof.Machine.execLcdBankSelect k s

end Sys2Proof.Machine
end

