-- ==== Sys2Proof/Machine/ResetPin.lean ====
section
/-! DEFINITION. `rst_n` asserted while a command runs (70_reset R231): the command has then done some of its steps,
which are its writes of `FB` or its steps on the device pins, and does no more (log 16). -/

namespace Sys2Proof.Machine

/-- How many steps a command has: bytes written by FB_CLEAR, setter calls of the other drawing commands, steps on
the device pins of every other. -/
def stepCount (i : Instr) (s : State) : Nat :=
  match i with
  | .sendInstr _ => (program i s.cfg s.fb).length
  | .sendData _ => (program i s.cfg s.fb).length
  | .reset => (program i s.cfg s.fb).length
  | .clearText => (program i s.cfg s.fb).length
  | .enterGraphics => (program i s.cfg s.fb).length
  | .setCursor _ _ => (program i s.cfg s.fb).length
  | .fbClear => 1024
  | .fbSet _ _ => 1
  | .fbSetChecked _ _ => 1
  | .line x0 y0 x1 y1 => (lineDrawn x0 y0 x1 y1 s.work).length
  | .circle cx cy radius => (circleDrawn s.cfg.circleStep cx cy radius s.work).length
  | .refresh => (program i s.cfg s.fb).length
  | .frameInstr _ _ => (program i s.cfg s.fb).length
  | .frameData _ _ => (program i s.cfg s.fb).length
  | .lcdFuncBasic => (program i s.cfg s.fb).length
  | .lcdDisplayOn => (program i s.cfg s.fb).length
  | .lcdClear => (program i s.cfg s.fb).length
  | .lcdEntryMode => (program i s.cfg s.fb).length
  | .lcdFuncExt => (program i s.cfg s.fb).length
  | .lcdFuncExtGfx => (program i s.cfg s.fb).length
  | .lcdCursorAddr _ _ _ => (program i s.cfg s.fb).length
  | .lcdRowSelect _ => (program i s.cfg s.fb).length
  | .lcdBankSelect _ => (program i s.cfg s.fb).length

/-- `FB` after `k` steps, fewer than the command has, in the pseudocode's order (log 27); LINE's first point off the
screen leaves no result (43_rasterizer_line R165, log 11). FB_SET's one write, on the screen or off it, is never
among these (log 16). -/
def partialFb (i : Instr) (k : Nat) (s : State) : Except (Int × Int) Memory :=
  match i with
  | .sendInstr _ => .ok s.fb
  | .sendData _ => .ok s.fb
  | .reset => .ok s.fb
  | .clearText => .ok s.fb
  | .enterGraphics => .ok s.fb
  | .setCursor _ _ => .ok s.fb
  | .fbClear => .ok (clearFirst k s.fb)
  | .fbSet _ _ => .ok s.fb
  | .fbSetChecked _ _ => .ok s.fb
  | .line x0 y0 x1 y1 => plotUnchecked ((lineDrawn x0 y0 x1 y1 s.work).take k) s.fb
  | .circle cx cy radius => .ok (plotVisible ((circleDrawn s.cfg.circleStep cx cy radius s.work).take k) s.fb)
  | .refresh => .ok s.fb
  | .frameInstr _ _ => .ok s.fb
  | .frameData _ _ => .ok s.fb
  | .lcdFuncBasic => .ok s.fb
  | .lcdDisplayOn => .ok s.fb
  | .lcdClear => .ok s.fb
  | .lcdEntryMode => .ok s.fb
  | .lcdFuncExt => .ok s.fb
  | .lcdFuncExtGfx => .ok s.fb
  | .lcdCursorAddr _ _ _ => .ok s.fb
  | .lcdRowSelect _ => .ok s.fb
  | .lcdBankSelect _ => .ok s.fb

/-- `rst_n` after a command, if it has come to a next state. -/
def thenReset : Host.Outcome State Fault Refusal → Host.Outcome State Fault Refusal
  | .next t => .next t.blockReset
  | .fault f => .fault f
  | .refused r => .refused r

/-- Command `i` accepted and running, `k` of its steps done or as many as the bus lets it, `FB` being `m`. -/
def State.cutAt (s : State) (i : Instr) (k : Nat) (m : Memory) : State :=
  { (s.accepted i).proceedWithin i 0 k (program i s.cfg s.fb) with fb := m, seq := .busy i k }

/-- Accept `i`; `rst_n` is asserted when `k` of its steps are done, or earlier where it waits for the bus, or, if it
has no more than `k`, after it has ended or while it waits (70_reset R231). DESIGN CHOICE (log 16): FB_SET off the
screen cut before its one write, and LINE cut before its first point off the screen, do not fault; the spec leaves it
open (42_framebuffer R147, 43_rasterizer_line R165). -/
def execCut (i : Instr) (k : Nat) (s : State) : Host.Outcome State Fault Refusal :=
  if k < stepCount i s then
    match partialFb i k s with
    | .ok m => .next (s.cutAt i k m).blockReset
    | .error p => .fault (.lineOffScreen p.1 p.2)
  else thenReset (exec i s)

end Sys2Proof.Machine
end

