-- ==== Sys2Proof/Machine/Step.lean ====
section
/-! DEFINITION. One step of the machine: one command, one event of the environment, or one turn of the poll loop
(10_state R27, R36, log 1, 19, 20). -/

namespace Sys2Proof.Machine

/-- What a word's instruction does, or the refusal of a word that has none (30_encoding R96). -/
def run (d : Except DecodeError Instr) (meaning : Instr → Host.Outcome State Fault Refusal) :
    Host.Outcome State Fault Refusal :=
  match d with
  | .ok i => meaning i
  | .error r => .refused (refusalOf r)

/-- Idle, the next input is served: a word is decoded and executed, a pin or a completion noted; with no input
`cmd_valid = 0` and nothing happens. Busy, the running command goes on (10_state R27, R34). -/
def step (s : State) : Host.Outcome State Fault Refusal :=
  match s.seq with
  | .busy op n => .next (s.busyStep op n)
  | .idle =>
    match s.inputs with
    | [] => .next s
    | .word w :: rest => run (decode (.command w)) fun i => exec i { s with inputs := rest }
    | .wordCut w k :: rest => run (decode (.command w)) fun i => execCut i k { s with inputs := rest }
    | .inner u :: rest => run (decode (.inner u)) fun i => exec i { s with inputs := rest }
    | .busReady n :: rest => .next ({ s with inputs := rest }.grant n)
    | .readyCut n _ :: rest => .next ({ s with inputs := rest }.grant n).blockReset
    | .resetPin :: rest => .next { s with inputs := rest }.blockReset

/-- The state in which the very next step runs the table word `w`: it stands first among the inputs and the block
is idle (log 19). -/
def State.withFetchWord (s : State) (nbits w : Nat) : State :=
  { s with inputs := present (tableWord nbits w) :: s.inputs, seq := .idle, inFlight := none }

end Sys2Proof.Machine
end

