-- ==== Sys2Proof/Machine/Trace.lean ====
section
/-! DEFINITION. Reading a trace back: frames (30_encoding R84), the bits on the link (20_memory R57), the time the
holds stand for (70_reset R251). -/

namespace Sys2Proof.Machine

/-- The kind of a frame (30_encoding R84). -/
inductive FrameKind
  | instruction
  | data
  deriving DecidableEq, Repr

/-- `b0 ∈ {0xF8, 0xFA}` (30_encoding R84). -/
def syncKind (b : Byte) : Option FrameKind :=
  if b = syncInstr then some .instruction else if b = syncData then some .data else none

/-- Three bytes read back as a frame: its kind and the logical byte `b1 | (b2 >> 4)` (30_encoding R84). -/
def unframe (b0 b1 b2 : Byte) : Option (FrameKind × Byte) :=
  match syncKind b0 with
  | none => none
  | some k => if b1 &&& 0x0F = 0 ∧ b2 &&& 0x0F = 0 then some (k, b1 ||| (b2 >>> 4)) else none

/-- What a trace consists of (40_bus R117): whole frames, reset-line events, and the extra holds of RESET and
CLEAR_TEXT. -/
inductive Item
  | frame (kind : FrameKind) (v : Byte)
  | rst (level : Bool)
  | hold (t : Hold)
  deriving DecidableEq, Repr

/-- One item before those already read, unless they did not read. -/
def consItem (i : Item) : Option (List Item) → Option (List Item)
  | none => none
  | some is => some (i :: is)

/-- A trace as items, or nothing if some part of it is not a whole frame with its settle hold, a reset-line event
or an extra hold. -/
def items : List Event → Option (List Item)
  | [] => some []
  | .rst level :: rest => consItem (.rst level) (items rest)
  | .hold .settle :: _ => none
  | .hold .rstLow :: rest => consItem (.hold .rstLow) (items rest)
  | .hold .rstHigh :: rest => consItem (.hold .rstHigh) (items rest)
  | .hold .clear :: rest => consItem (.hold .clear) (items rest)
  | .byte b0 :: .byte b1 :: .byte b2 :: .hold .settle :: rest =>
    match unframe b0 b1 b2 with
    | none => none
    | some f => consItem (.frame f.1 f.2) (items rest)
  | .byte _ :: _ => none

/-- The logical bytes of the frames among some items, in order, with their kinds. -/
def framesOf (is : List Item) : List (FrameKind × Byte) :=
  is.filterMap fun i =>
    match i with
    | .frame k v => some (k, v)
    | .rst _ => none
    | .hold _ => none

/-- The physical bytes of a trace, in order (20_memory R68). -/
def bytesOf (es : List Event) : List Byte :=
  es.filterMap fun e =>
    match e with
    | .byte v => some v
    | .rst _ => none
    | .hold _ => none

/-- Bits of one byte in the order they leave the link, most significant first (20_memory R57, log 18). -/
def serialBits (v : Byte) : List Bool := (List.range 8).map fun k => v.getMsbD k

/-- All bits a trace puts on the link. -/
def wireBits (es : List Event) : List Bool := (bytesOf es).flatMap serialBits

/-- A lower bound, in microseconds, on the time the holds of a trace take (70_reset R248, R251, log 17). -/
def holdTime (c : Config) (es : List Event) : Nat :=
  (es.map fun e =>
    match e with
    | .hold t => c.holdMicros t
    | .byte _ => 0
    | .rst _ => 0).sum

end Sys2Proof.Machine
end

