-- ==== Sys2Proof/Safety.lean ====
section
/-! DEFINITION. What claims are made of: the events and states the rules give, the invariant of the machine, and the
comparison of two runs. -/

namespace Sys2Proof.Machine

/-! ## What the rules give -/

/-- The four events of `Frame(s, v)` (40_bus R110). -/
def frameEvents (sync v : Byte) : List Event :=
  [.byte sync, .byte (v &&& 0xF0), .byte ((v <<< 4) &&& 0xF0), .hold .settle]

/-- The trace of RESET (41_mode R125). -/
def resetEvents (c : Config) : List Event :=
  [.rst false, .hold .rstLow, .rst true, .hold .rstHigh] ++ frameEvents 0xF8 c.opFuncBasic ++
    frameEvents 0xF8 c.opFuncBasic ++ frameEvents 0xF8 c.opDisplayOn ++ frameEvents 0xF8 c.opClear ++
    [.hold .clear] ++ frameEvents 0xF8 c.opEntryMode

/-- A state after one completed frame and nothing else: the framer's registers, one frame in the trace, three
transfers of the bus used. -/
def State.afterFrame (s : State) (sync v : Byte) : State :=
  { s with
    trace := s.trace ++ frameEvents sync v
    work := { s.work with fsync := sync, fval := v, fidx := 0 }
    bus := s.bus.map (· - 3)
    seq := .idle
    inFlight := none }

/-- The words among some inputs, in order. -/
def wordsOf (inputs : List Input) : List Encoded :=
  inputs.filterMap Input.carried

/-- The level of the reset line after some events, from its level before them (10_state R24). -/
def lineLevel (level : Bool) (es : List Event) : Bool :=
  es.foldl (fun b e =>
    match e with
    | .rst b' => b'
    | .byte _ => b
    | .hold _ => b) level

/-- No pixel of the screen is lit. -/
def blank (m : Memory) : Prop := ∀ x y : Int, onScreen x y = true → fbGet m x y = false

/-! ## The invariant -/

/-- A value of the 18-bit datapath (10_state R31). -/
def fits18 (v : Int) : Bool := -131072 ≤ v && v ≤ 131071

/-- The working registers hold what their widths carry (10_state R30, R31). -/
def Work.fits (w : Work) : Bool :=
  fits18 w.x0 && fits18 w.y0 && fits18 w.x1 && fits18 w.y1 && fits18 w.deltax && fits18 w.deltay &&
    fits18 w.err && fits18 w.ystep && fits18 w.x && fits18 w.y && fits18 w.cx && fits18 w.cy &&
    fits18 w.e && w.row ≤ 64 && w.col ≤ 16

/-- `SEQ` is consistent: idle with nothing in flight, or busy at a transfer of its command, that byte in flight and
no completion left (10_state R27, R36). -/
def State.seqOk (s : State) : Bool :=
  match s.seq with
  | .idle => s.inFlight.isNone
  | .busy op n =>
    match (program op s.cfg s.fb)[n]? with
    | none => false
    | some a => a.transfer.isSome && s.inFlight == a.transfer && s.bus == some 0

/-- The events a running command has still to emit. -/
def State.pendingEvents (s : State) : List Event :=
  match s.seq with
  | .idle => []
  | .busy op n => ((program op s.cfg s.fb).drop n).filterMap Act.event

/-- The trace, with what the running command has still to emit, is whole frames, reset-line events and extra holds
(40_bus R117), unless `rst_n` cut a command short (70_reset R231). -/
def State.framed (s : State) : Bool :=
  s.contracts.abandoned || (items (s.trace ++ s.pendingEvents)).isSome

/-- The invariant every step keeps. -/
def State.Inv (s : State) : Prop :=
  s.fb.wf = true ∧ s.work.fits = true ∧ s.seqOk = true ∧ s.framed = true

/-! ## Two runs beside each other -/

/-- Two outcomes of the same kind, next states related by `R`, stops equal. -/
def alike (R : State → State → Prop) (a b : Host.Outcome State Fault Refusal) : Prop :=
  match a, b with
  | .next s, .next t => R s t
  | .fault f, .fault g => f = g
  | .refused f, .refused g => f = g
  | _, _ => False

/-- Equal but for `MODE` and the record of contracts. -/
def sameButMode (s t : State) : Prop :=
  s.fb = t.fb ∧ s.rstLine = t.rstLine ∧ s.trace = t.trace ∧ s.seq = t.seq ∧ s.inFlight = t.inFlight ∧
    s.work = t.work ∧ s.bus = t.bus ∧ s.inputs = t.inputs ∧ s.cfg = t.cfg

/-- Equal but for the working registers. -/
def sameButWork (s t : State) : Prop :=
  s.fb = t.fb ∧ s.rstLine = t.rstLine ∧ s.trace = t.trace ∧ s.seq = t.seq ∧ s.inFlight = t.inFlight ∧
    s.mode = t.mode ∧ s.contracts = t.contracts ∧ s.bus = t.bus ∧ s.inputs = t.inputs ∧ s.cfg = t.cfg

end Sys2Proof.Machine
end

