-- ==== Sys2Proof/Certificates/Slice0/Obligations.lean ====
section
/-! DEFINITION. The statements for the provers, from the numbered rules of spec/. -/

open Sys2Proof Sys2Proof.Machine

/-! ## Encodings and the step -/

/-- Decoding undoes encoding for every instruction a word can carry (30_encoding sections 1 to 3). -/
def Obligations.DecodeUndoesEncode : Prop :=
  ∀ i : Instr, i.wf = true → decode (encode i) = .ok i

/-- Whatever the decoder accepts is well formed (30_encoding R97 says no operand value is illegal; the 16-bit
operands are the spec's decision D3). -/
def Obligations.DecodedInstructionsAreWellFormed : Prop :=
  ∀ (e : Encoded) (i : Instr), decode e = .ok i → i.wf = true

/-- The opcode map of 30_encoding section 3 (decision D2), every used field at every value, every unused field
ignored (decision D23). -/
def Obligations.OpcodeMapReadsEachCommand : Prop :=
  ∀ a b c d : Field,
    decode (.command (0x10#8 ++ a ++ b ++ c ++ d)) = .ok (.sendInstr (a.setWidth 8)) ∧
    decode (.command (0x11#8 ++ a ++ b ++ c ++ d)) = .ok (.sendData (a.setWidth 8)) ∧
    decode (.command (0x20#8 ++ a ++ b ++ c ++ d)) = .ok .reset ∧
    decode (.command (0x21#8 ++ a ++ b ++ c ++ d)) = .ok .clearText ∧
    decode (.command (0x22#8 ++ a ++ b ++ c ++ d)) = .ok .enterGraphics ∧
    decode (.command (0x23#8 ++ a ++ b ++ c ++ d)) = .ok (.setCursor a b.toInt) ∧
    decode (.command (0x30#8 ++ a ++ b ++ c ++ d)) = .ok .fbClear ∧
    decode (.command (0x31#8 ++ a ++ b ++ c ++ d)) = .ok (.fbSet a.toInt b.toInt) ∧
    decode (.command (0x32#8 ++ a ++ b ++ c ++ d)) = .ok (.fbSetChecked a.toInt b.toInt) ∧
    decode (.command (0x40#8 ++ a ++ b ++ c ++ d)) = .ok (.line a.toInt b.toInt c.toInt d.toInt) ∧
    decode (.command (0x41#8 ++ a ++ b ++ c ++ d)) = .ok (.circle a.toInt b.toInt c.toInt) ∧
    decode (.command (0x50#8 ++ a ++ b ++ c ++ d)) = .ok .refresh

/-- Words written out from 30_encoding and 95_test_vectors decode to what they stand for. The LCD clauses rest on the
presumed default bytes (log 5) and on the place in the word, which is the model's choice (log 10). -/
def Obligations.SampleWordsDecode : Prop :=
  decode (.command 0x230001000000000000) = .ok (.setCursor 1 0) ∧
  decode (.command 0x110048000000000000) = .ok (.sendData 0x48) ∧
  decode (.command 0x10AB30000000000000) = .ok (.sendInstr 0x30) ∧
  decode (.command 0x32FFFF000000000000) = .ok (.fbSetChecked (-1) 0) ∧
  decode (.command 0x4000000000000A0000) = .ok (.line 0 0 10 0) ∧
  decode (.command 0x41FFFB002000050000) = .ok (.circle (-5) 32 5) ∧
  decode (.command 0x500000000000000000) = .ok .refresh ∧
  decode (.frame 0b111110000011000000000000) = .ok (.frameInstr 0x3 0x0) ∧
  decode (.frame 0b111110100101000010100000) = .ok (.frameData 0x5 0xA) ∧
  decode (.lcd .plain 0b00110110) = .ok .lcdFuncExtGfx ∧
  decode (.lcd .plain 0b10001101) = .ok (.lcdCursorAddr 0 1 5) ∧
  decode (.lcd .rowSlot 0b10011111) = .ok (.lcdRowSelect 31) ∧
  decode (.lcd .bankSlot 0b10001000) = .ok (.lcdBankSelect 1)

/-- When the block is idle and a word comes in, one step is the decoded instruction's exec, the word used up (log 1, 8,
19); a word without an instruction is refused (30_encoding R96; for malformed frames and unknown LCD bytes the model's
choice, log 21); with nothing presented nothing happens (an idle step to itself is the model's choice, log 20). -/
def Obligations.StepRunsTheDecodedInstruction : Prop :=
  (∀ (s : State) (e : Encoded) (rest : List Input) (i : Instr),
    s.seq = .idle → s.inputs = present e :: rest → decode e = .ok i →
      step s = exec i { s with inputs := rest }) ∧
  (∀ (s : State) (e : Encoded) (rest : List Input) (r : DecodeError),
    s.seq = .idle → s.inputs = present e :: rest → decode e = .error r → step s = .refused (refusalOf r)) ∧
  (∀ (s : State) (w : CmdWord) (k : Nat) (rest : List Input) (r : DecodeError),
    s.seq = .idle → s.inputs = .wordCut w k :: rest → decode (.command w) = .error r →
      step s = .refused (refusalOf r)) ∧
  (∀ s : State, s.seq = .idle → s.inputs = [] → step s = .next s) ∧
  (∀ (s : State) (nbits w : Nat) (i : Instr), decodeTableWord nbits w = some i →
    step (s.withFetchWord nbits w) = exec i { s with seq := .idle, inFlight := none })

/-- A word with one of the 244 reserved opcodes is refused by name (30_encoding section 3, decision D18). -/
def Obligations.ReservedOpcodesAreRefused : Prop :=
  ∀ (s : State) (w : CmdWord) (rest : List Input), s.seq = .idle → s.inputs = .word w :: rest →
    w.extractLsb' 64 8 ∉
      ([0x10, 0x11, 0x20, 0x21, 0x22, 0x23, 0x30, 0x31, 0x32, 0x40, 0x41, 0x50] : List Byte) →
    step s = .refused (.reservedOpcode (w.extractLsb' 64 8))

/-! ## Bus Transport -/

/-- SEND_INSTR (40_bus R112): opcode 0x10, any byte, one instruction frame, no other state written. -/
def Obligations.SendInstrSendsOneInstructionFrame : Prop :=
  (∀ a b c d : Field, decode (.command (0x10#8 ++ a ++ b ++ c ++ d)) = .ok (.sendInstr (a.setWidth 8))) ∧
  ∀ (byte : Byte) (s : State), s.busAllows 3 = true →
    exec (.sendInstr byte) s = .next (s.afterFrame 0xF8 byte)

/-- SEND_DATA (40_bus R113): opcode 0x11, any byte, one data frame, no other state written. -/
def Obligations.SendDataSendsOneDataFrame : Prop :=
  (∀ a b c d : Field, decode (.command (0x11#8 ++ a ++ b ++ c ++ d)) = .ok (.sendData (a.setWidth 8))) ∧
  ∀ (byte : Byte) (s : State), s.busAllows 3 = true →
    exec (.sendData byte) s = .next (s.afterFrame 0xFA byte)

/-- A wire frame run by itself is `Frame` (40_bus section 1). That a frame word can be run by itself is the model's
choice (log 9). -/
def Obligations.FrameRowsEmitTheirFrame : Prop :=
  ∀ (h l : Nibble) (s : State), s.busAllows 3 = true →
    exec (.frameInstr h l) s = .next (s.afterFrame 0xF8 (h ++ l)) ∧
    exec (.frameData h l) s = .next (s.afterFrame 0xFA (h ++ l))

/-- Each LCD instruction byte is sent as one instruction frame carrying the parameter's byte (30_encoding section 2).
That such a byte can be run by itself is the model's choice (log 9). -/
def Obligations.LcdRowsSendTheirParameter : Prop :=
  ∀ s : State, s.busAllows 3 = true →
    exec .lcdFuncBasic s = .next (s.afterFrame 0xF8 s.cfg.opFuncBasic) ∧
    exec .lcdDisplayOn s = .next (s.afterFrame 0xF8 s.cfg.opDisplayOn) ∧
    exec .lcdClear s = .next (s.afterFrame 0xF8 s.cfg.opClear) ∧
    exec .lcdEntryMode s = .next (s.afterFrame 0xF8 s.cfg.opEntryMode) ∧
    exec .lcdFuncExt s = .next (s.afterFrame 0xF8 s.cfg.opFuncExt) ∧
    exec .lcdFuncExtGfx s = .next (s.afterFrame 0xF8 s.cfg.opFuncExtGfx) ∧
    (∀ (a b : BitVec 1) (c : BitVec 3), exec (.lcdCursorAddr a b c) s = .next (s.afterFrame 0xF8
      (s.cfg.opCursorBase + c.setWidth 8 + 0x10#8 * a.setWidth 8 + 0x08#8 * b.setWidth 8))) ∧
    (∀ r : BitVec 5, exec (.lcdRowSelect r) s =
      .next (s.afterFrame 0xF8 (s.cfg.opRowSelect ||| r.setWidth 8))) ∧
    (∀ k : BitVec 1, exec (.lcdBankSelect k) s =
      .next (s.afterFrame 0xF8 (if k = 0 then s.cfg.opBank0 else s.cfg.opBank1)))

/-- With the default parameters each of the nine LCD rows sends exactly the byte the opcode table gives it
(30_encoding section 2; the defaults are general knowledge, log 5). -/
def Obligations.LcdRowsSendTheirOwnEncoding : Prop :=
  ∀ (i : Instr) (place : LcdPlace) (b : Byte) (s : State), encode i = .lcd place b →
    s.cfg = Config.default → s.busAllows 3 = true → exec i s = .next (s.afterFrame 0xF8 b)

/-- A frame on the link, bit by bit, most significant bit first: `11111000 hhhh0000 llll0000` for an instruction,
`11111010 hhhh0000 llll0000` for data (30_encoding section 1; the bit order within a byte is decision D8, log 18). -/
def Obligations.FrameBitsFollowThePattern : Prop :=
  ∀ v : Byte,
    wireBits (frameEvents 0xF8 v) =
      [true, true, true, true, true, false, false, false,
       v.getLsbD 7, v.getLsbD 6, v.getLsbD 5, v.getLsbD 4, false, false, false, false,
       v.getLsbD 3, v.getLsbD 2, v.getLsbD 1, v.getLsbD 0, false, false, false, false] ∧
    wireBits (frameEvents 0xFA v) =
      [true, true, true, true, true, false, true, false,
       v.getLsbD 7, v.getLsbD 6, v.getLsbD 5, v.getLsbD 4, false, false, false, false,
       v.getLsbD 3, v.getLsbD 2, v.getLsbD 1, v.getLsbD 0, false, false, false, false]

/-- Every frame reads back as its kind and its logical byte, so the 512 frames are distinct (30_encoding
section 1). -/
def Obligations.FramesReadBack : Prop :=
  (∀ v : Byte, items (frameEvents 0xF8 v) = some [.frame .instruction v] ∧
    items (frameEvents 0xFA v) = some [.frame .data v]) ∧
  ∀ s s' v v' : Byte, (s = 0xF8 ∨ s = 0xFA) → (s' = 0xF8 ∨ s' = 0xFA) →
    frameEvents s v = frameEvents s' v' → s = s' ∧ v = v'

/-- A completed command's trace is whole frames, plus reset-line events and extra holds for RESET and CLEAR_TEXT
only, and has three bytes for every frame (40_bus section 3). -/
def Obligations.CompletedCommandsEmitWholeFrames : Prop :=
  ∀ (i : Instr) (s t : State), s.seq = .idle → exec i s = .next t → t.seq = .idle →
    ∃ es is, t.trace = s.trace ++ es ∧ items es = some is ∧
      (bytesOf es).length = 3 * (framesOf is).length ∧
      (i ≠ .reset → i ≠ .clearText → is.length = (framesOf is).length)

/-- SEND_STRING: its words run one after the other stream one data frame a byte, in order, and change nothing else
(30_encoding section 4, 40_bus section 2; the expansion is decision D21, log 22). -/
def Obligations.SendStringStreamsItsBytes : Prop :=
  ∀ (bytes : List Byte) (s : State) (rest : List Input), s.seq = .idle → s.inFlight = none →
    s.busAllows (3 * bytes.length) = true →
    ∃ t, Host.Core.run core bytes.length
        { s with inputs := (sendString bytes).map Input.word ++ rest } = .next t ∧
      t.trace = s.trace ++ bytes.flatMap (frameEvents 0xFA) ∧ t.inputs = rest ∧ t.seq = .idle ∧
      t.inFlight = none ∧ t.fb = s.fb ∧ t.mode = s.mode ∧ t.rstLine = s.rstLine ∧ t.contracts = s.contracts ∧
      t.cfg = s.cfg ∧ t.bus = s.bus.map (· - 3 * bytes.length)

/-! ## Mode & Reset Controller -/

/-- RESET (41_mode R125): opcode 0x20, legal in every mode, the reset pulse, five frames and the text clear's hold,
`RSTLINE` high and `MODE` Text at the end, `FB` untouched; if the bus never completes a byte the command does not
end and `MODE` keeps its old value. -/
def Obligations.ResetEmitsItsSequence : Prop :=
  (∀ a b c d : Field, decode (.command (0x20#8 ++ a ++ b ++ c ++ d)) = .ok .reset) ∧
  (∀ s : State, s.busAllows 15 = true →
    exec .reset s = .next { s with
      trace := s.trace ++ resetEvents s.cfg
      rstLine := true
      mode := .text
      work := { s.work with fsync := 0xF8, fval := s.cfg.opEntryMode, fidx := 0 }
      bus := s.bus.map (· - 15)
      seq := .idle
      inFlight := none }) ∧
  ∀ s : State, s.busAllows 15 = false →
    ∃ t n, exec .reset s = .next t ∧ t.seq = .busy .reset n ∧ t.mode = s.mode ∧ t.fb = s.fb

/-- CLEAR_TEXT (41_mode section 2): one frame and the extra hold after it (decision D12); only the record of the
mode contract (log 15) can change besides. -/
def Obligations.ClearTextSendsFrameAndHold : Prop :=
  ∀ s : State, s.busAllows 3 = true →
    exec .clearText s = .next { s with
      trace := s.trace ++ frameEvents 0xF8 s.cfg.opClear ++ [.hold .clear]
      work := { s.work with fsync := 0xF8, fval := s.cfg.opClear, fidx := 0 }
      bus := s.bus.map (· - 3)
      seq := .idle
      inFlight := none
      contracts := { s.contracts with mode := s.contracts.mode || s.mode != .text } }

/-- ENTER_GRAPHICS (41_mode section 3): the two function-set frames in order, then `MODE` Graphics whatever it was
(decisions D7, D9); the record of the mode contract is the model's (log 15). -/
def Obligations.EnterGraphicsSendsTwoFrames : Prop :=
  ∀ s : State, s.busAllows 6 = true →
    exec .enterGraphics s = .next { s with
      trace := s.trace ++ frameEvents 0xF8 s.cfg.opFuncExt ++ frameEvents 0xF8 s.cfg.opFuncExtGfx
      mode := .graphics
      work := { s.work with fsync := 0xF8, fval := s.cfg.opFuncExtGfx, fidx := 0 }
      bus := s.bus.map (· - 6)
      seq := .idle
      inFlight := none
      contracts := { s.contracts with mode := s.contracts.mode || s.mode != .text } }

/-- SET_CURSOR (41_mode section 4): opcode 0x23; the byte `(0x80 + col + 0x10·line[0] + 0x08·line[1]) mod 256` as one
instruction frame; `FB`, `MODE`, `RSTLINE` unchanged. That it runs for every `col` is the model's choice (log 12), and
so is the record of the two contracts (log 12, 15). -/
def Obligations.SetCursorSendsItsAddress : Prop :=
  (∀ a b c d : Field, decode (.command (0x23#8 ++ a ++ b ++ c ++ d)) = .ok (.setCursor a b.toInt)) ∧
  ∀ (line : Field) (col : Int) (s : State), s.cfg.opCursorBase = 0x80 → s.busAllows 3 = true →
    let addr : Byte := BitVec.ofInt 8
      (0x80 + col + (if line.getLsbD 0 then 0x10 else 0) + (if line.getLsbD 1 then 0x08 else 0))
    exec (.setCursor line col) s = .next { s with
      trace := s.trace ++ frameEvents 0xF8 addr
      work := { s.work with fsync := 0xF8, fval := addr, fidx := 0, addr := addr }
      bus := s.bus.map (· - 3)
      seq := .idle
      inFlight := none
      contracts := { s.contracts with
        mode := s.contracts.mode || s.mode != .text
        column := s.contracts.column || decide (col < 0 ∨ 7 < col) } }

/-- Inside `0 ≤ col ≤ 7` the cursor byte is `100abccc` with `a = line[0]`, `b = line[1]`, `ccc = col`, and the
four values the source gives come out (41_mode section 4). -/
def Obligations.CursorAddressPattern : Prop :=
  (∀ (line : Field) (col : Fin 8), cursorAddr 0x80 line col.val =
    0b100#3 ++ line.extractLsb' 0 1 ++ line.extractLsb' 1 1 ++ BitVec.ofNat 3 col.val) ∧
  cursorAddr 0x80 2 0 = 0x88 ∧ cursorAddr 0x80 1 0 = 0x90 ∧ cursorAddr 0x80 3 0 = 0x98 ∧
  cursorAddr 0x80 0 5 = 0x85

/-- `MODE` is written by RESET, to Text, and by ENTER_GRAPHICS, to Graphics, and by no other instruction: there is
no other way from Graphics to Text (41_mode R132), and raw bytes never change it. -/
def Obligations.OnlyResetAndEnterGraphicsWriteMode : Prop :=
  ∀ (i : Instr) (s t : State), exec i s = .next t →
    t.mode = s.mode ∨ (i = .reset ∧ t.mode = .text) ∨ (i = .enterGraphics ∧ t.mode = .graphics)

/-- Uninitialized is never entered again except by `rst_n` (41_mode section 5). -/
def Obligations.UninitializedOnlyByResetPin : Prop :=
  ∀ s t : State, step s = .next t → s.mode ≠ .uninitialized → t.mode = .uninitialized →
    ∃ i ∈ s.inputs, i.pulses = true

/-- No command reads `MODE`: neither the trace nor any register written nor a stop depends on it (10_state
section 1, 60_exceptions section 2: "no guard"). -/
def Obligations.NoOutputDependsOnMode : Prop :=
  ∀ (i : Instr) (s : State) (m : Mode), alike sameButMode (exec i s) (exec i { s with mode := m })

/-- A command in a mode its contract does not allow is recorded, and only then (60_exceptions section 2, decision
D19; the record is the model's, log 15). -/
def Obligations.ModeContractIsRecorded : Prop :=
  ∀ (i : Instr) (s t : State), exec i s = .next t →
    (t.contracts.mode = true ↔
      s.contracts.mode = true ∨
      ((i = .clearText ∨ i = .enterGraphics ∨ ∃ line col, i = .setCursor line col) ∧ s.mode ≠ .text) ∨
      (i = .refresh ∧ s.mode ≠ .graphics))

/-- A recorded contract fault is never cleared (60_exceptions section 2, decision D19). -/
def Obligations.ContractFaultsAreSticky : Prop :=
  ∀ s t : State, step s = .next t →
    (s.contracts.mode = true → t.contracts.mode = true) ∧
    (s.contracts.column = true → t.contracts.column = true) ∧
    (s.contracts.endpoint = true → t.contracts.endpoint = true) ∧
    (s.contracts.radius = true → t.contracts.radius = true) ∧
    (s.contracts.abandoned = true → t.contracts.abandoned = true)

/-! ## Framebuffer -/

/-- FB_SET (42_framebuffer R145): opcode 0x31; on the screen one byte is OR-ed with the mask, every other byte and
everything else stays. -/
def Obligations.FbSetOrsOneBit : Prop :=
  (∀ a b c d : Field, decode (.command (0x31#8 ++ a ++ b ++ c ++ d)) = .ok (.fbSet a.toInt b.toInt)) ∧
  ∀ (x y : Int) (s : State), 0 ≤ x → x < 128 → 0 ≤ y → y < 64 →
    ∃ m : Memory, exec (.fbSet x y) s = .next { s with fb := m } ∧
      m.read (y * 16 + x / 8).toNat =
        s.fb.read (y * 16 + x / 8).toNat ||| (0x80#8 >>> (x % 8).toNat) ∧
      ∀ i : Nat, i ≠ (y * 16 + x / 8).toNat → m.read i = s.fb.read i

/-- FB_SET off the screen has no result: it stops with a fault, at every such coordinate (42_framebuffer section 1,
decision D14, log 11). -/
def Obligations.FbSetOffScreenFaults : Prop :=
  ∀ (x y : Int) (s : State), x < 0 ∨ 128 ≤ x ∨ y < 0 ∨ 64 ≤ y →
    exec (.fbSet x y) s = .fault (.setOffScreen x y)

/-- FB_SET_CHECKED (42_framebuffer R148): opcode 0x32; as FB_SET on the screen, nothing at all off it. -/
def Obligations.FbSetCheckedSetsOrIgnores : Prop :=
  (∀ a b c d : Field, decode (.command (0x32#8 ++ a ++ b ++ c ++ d)) = .ok (.fbSetChecked a.toInt b.toInt)) ∧
  (∀ (x y : Int) (s : State), 0 ≤ x → x < 128 → 0 ≤ y → y < 64 →
    ∃ m : Memory, exec (.fbSetChecked x y) s = .next { s with fb := m } ∧
      m.read (y * 16 + x / 8).toNat =
        s.fb.read (y * 16 + x / 8).toNat ||| (0x80#8 >>> (x % 8).toNat) ∧
      ∀ i : Nat, i ≠ (y * 16 + x / 8).toNat → m.read i = s.fb.read i) ∧
  ∀ (x y : Int) (s : State), x < 0 ∨ 128 ≤ x ∨ y < 0 ∨ 64 ≤ y → exec (.fbSetChecked x y) s = .next s

/-- FB_CLEAR (42_framebuffer R150): opcode 0x30; all 1024 bytes zero from any state, nothing else changed, nothing
sent; the order in which the 1024 bytes are written cannot be observed. -/
def Obligations.FbClearZeroesAllBytes : Prop :=
  (∀ a b c d : Field, decode (.command (0x30#8 ++ a ++ b ++ c ++ d)) = .ok .fbClear) ∧
  ∀ s : State, ∃ m : Memory, exec .fbClear s = .next { s with fb := m } ∧
    (∀ i : Nat, i < 1024 → m.read i = 0) ∧
    (s.fb.wf = true → ∀ order : List Nat, order.Perm (List.range 1024) →
      order.foldl (fun fb i => fb.write i 0) s.fb = m)

/-- The source's three testable properties of the framebuffer (42_framebuffer R153). -/
def Obligations.ClearThenSetLightsOneBit : Prop :=
  (∀ (s : State) (x y : Int), 0 ≤ x → x < 128 → 0 ≤ y → y < 64 →
    ∃ t u : State, exec .fbClear s = .next t ∧ exec (.fbSet x y) t = .next u ∧
      u.fb.read (y * 16 + x / 8).toNat = 0x80#8 >>> (x % 8).toNat ∧
      ∀ i : Nat, i < 1024 → i ≠ (y * 16 + x / 8).toNat → u.fb.read i = 0) ∧
  (∀ s : State, ∃ t : State, exec .fbClear s = .next t ∧ ∀ i : Nat, i < 1024 → t.fb.read i = 0) ∧
  ∀ (s : State) (x y : Int), x < 0 ∨ 128 ≤ x ∨ y < 0 ∨ 64 ≤ y → exec (.fbSetChecked x y) s = .next s

/-- The map from pixels on the screen to the 1024 times 8 (byte, bit) pairs is a bijection with the stated inverse,
which gives a pixel on the screen for every pair (20_memory section 1). -/
def Obligations.PixelAddressIsABijection : Prop :=
  (∀ x y : Int, onScreen x y = true → pixelIndex x y < 1024 ∧ ∃ b : Fin 8, pixelMask x = 1#8 <<< b.val) ∧
  ∀ (i : Nat) (b : Fin 8), i < 1024 →
    onScreen (8 * (i % 16 : Nat) + (7 - b.val)) (i / 16 : Nat) = true ∧
    ∀ x y : Int, onScreen x y = true →
      ((pixelIndex x y = i ∧ pixelMask x = 1#8 <<< b.val) ↔
        (x = 8 * (i % 16 : Nat) + (7 - b.val) ∧ y = (i / 16 : Nat)))

/-- FB_SET lights its pixel and no other (20_memory R51, read by `FbGet`). -/
def Obligations.FbSetLightsItsPixelOnly : Prop :=
  ∀ (x y px py : Int) (s t : State), onScreen x y = true → onScreen px py = true →
    exec (.fbSet x y) s = .next t →
    (fbGet t.fb px py = true ↔ fbGet s.fb px py = true ∨ (px = x ∧ py = y))

/-- Between two FB_CLEAR commands a bit of `FB` only goes from 0 to 1, whatever runs (42_framebuffer section 4). -/
def Obligations.OnlyFbClearClearsBits : Prop :=
  ∀ (i : Instr) (s t : State), exec i s = .next t → i ≠ .fbClear →
    ∀ j : Nat, s.fb.read j &&& t.fb.read j = s.fb.read j

/-- `FB` is written by FB_CLEAR, FB_SET, FB_SET_CHECKED, LINE and CIRCLE only (10_state section 1). -/
def Obligations.OnlyDrawingWritesFramebuffer : Prop :=
  ∀ (i : Instr) (s t : State), exec i s = .next t → t.fb ≠ s.fb →
    i = .fbClear ∨ (∃ x y, i = .fbSet x y) ∨ (∃ x y, i = .fbSetChecked x y) ∨
      (∃ x0 y0 x1 y1, i = .line x0 y0 x1 y1) ∨ ∃ cx cy r, i = .circle cx cy r

/-! ## LINE -/

/-- LINE completes when both endpoints are on the screen: it lights the points of its loop, and besides them changes
its own registers only; every byte that holds none of them stays (43_rasterizer_line sections 1 and 3; the unstated
details of the loop are decision D15, log 26). -/
def Obligations.LineCompletesOnScreen : Prop :=
  ∀ (x0 y0 x1 y1 : Int) (s : State), onScreen x0 y0 = true → onScreen x1 y1 = true →
    let points := lineDrawn x0 y0 x1 y1 s.work
    ∃ (m : Memory) (w : Work), exec (.line x0 y0 x1 y1) s = .next { s with fb := m, work := w } ∧
      (w.fsync = s.work.fsync ∧ w.fval = s.work.fval ∧ w.fidx = s.work.fidx ∧ w.cx = s.work.cx ∧
        w.cy = s.work.cy ∧ w.e = s.work.e ∧ w.row = s.work.row ∧ w.col = s.work.col ∧
        w.addr = s.work.addr) ∧
      (∀ px py : Int, onScreen px py = true →
        (fbGet m px py = true ↔ fbGet s.fb px py = true ∨ (px, py) ∈ points)) ∧
      ∀ i : Nat, (∀ p ∈ points, pixelIndex p.1 p.2 ≠ i) → m.read i = s.fb.read i

/-- A line that is not steep, given left to right, lights exactly one pixel in each column from `x0` to `x1 - 1`, at
the rounded height; the endpoint `x1` is left out (43_rasterizer_line sections 1 and 2; the unstated details of the
algorithm are decision D15, log 26). -/
def Obligations.ShallowLineClosedForm : Prop :=
  ∀ (x0 y0 x1 y1 : Int) (s : State), onScreen x0 y0 = true → onScreen x1 y1 = true → x0 < x1 →
    |y1 - y0| ≤ x1 - x0 →
    ∃ (m : Memory) (w : Work), exec (.line x0 y0 x1 y1) s = .next { s with fb := m, work := w } ∧
      ∀ px py : Int, onScreen px py = true →
        (fbGet m px py = true ↔ fbGet s.fb px py = true ∨
          (x0 ≤ px ∧ px < x1 ∧ py = y0 + (if y0 < y1 then 1 else -1) *
            (((px - x0) * |y1 - y0| + (x1 - x0 - 1 - (x1 - x0) / 2)) / (x1 - x0))))

/-- A steep line, given top to bottom, the same with the axes exchanged (43_rasterizer_line sections 1 and 2;
decision D15, log 26). -/
def Obligations.SteepLineClosedForm : Prop :=
  ∀ (x0 y0 x1 y1 : Int) (s : State), onScreen x0 y0 = true → onScreen x1 y1 = true → y0 < y1 →
    |x1 - x0| < y1 - y0 →
    ∃ (m : Memory) (w : Work), exec (.line x0 y0 x1 y1) s = .next { s with fb := m, work := w } ∧
      ∀ px py : Int, onScreen px py = true →
        (fbGet m px py = true ↔ fbGet s.fb px py = true ∨
          (y0 ≤ py ∧ py < y1 ∧ px = x0 + (if x0 < x1 then 1 else -1) *
            (((py - y0) * |x1 - x0| + (y1 - y0 - 1 - (y1 - y0) / 2)) / (y1 - y0))))

/-- LINE gives the same result whichever endpoint is named first, whatever the operands (43_rasterizer_line
section 2). -/
def Obligations.LineIsSymmetricInItsEndpoints : Prop :=
  ∀ (x0 y0 x1 y1 : Int) (s : State), exec (.line x0 y0 x1 y1) s = exec (.line x1 y1 x0 y0) s

/-- A line whose endpoints are equal plots nothing, on the screen or off it; off the screen the endpoint contract is
recorded (43_rasterizer_line section 4, log 14). -/
def Obligations.LineOfOnePointDrawsNothing : Prop :=
  ∀ (x y : Int) (s : State), ∃ w : Work, exec (.line x y x y) s = .next { s with
    work := w
    contracts := { s.contracts with endpoint := s.contracts.endpoint || !onScreen x y } }

/-- LINE, for any operands, plots `max(|x1-x0|, |y1-y0|)` distinct points in the bounding box of its endpoints. If all
are on the screen it completes, lights them, changes its own registers only, and records an endpoint off the screen,
which is the model's choice (log 14); the first point off the screen is where it faults (43_rasterizer_line section 3,
decisions D14, D15, log 11, 26). -/
def Obligations.LinePointsBoundTheirFaults : Prop :=
  ∀ (x0 y0 x1 y1 : Int) (s : State),
    let points := lineDrawn x0 y0 x1 y1 s.work
    points.length = max (x1 - x0).natAbs (y1 - y0).natAbs ∧ points.Nodup ∧
    (∀ p ∈ points, min x0 x1 ≤ p.1 ∧ p.1 ≤ max x0 x1 ∧ min y0 y1 ≤ p.2 ∧ p.2 ≤ max y0 y1) ∧
    ((∀ p ∈ points, onScreen p.1 p.2 = true) →
      ∃ (m : Memory) (w : Work),
        exec (.line x0 y0 x1 y1) s = .next { s with
          fb := m
          work := w
          contracts := { s.contracts with
            endpoint := s.contracts.endpoint || !(onScreen x0 y0 && onScreen x1 y1) } } ∧
        (w.fsync = s.work.fsync ∧ w.fval = s.work.fval ∧ w.fidx = s.work.fidx ∧ w.cx = s.work.cx ∧
          w.cy = s.work.cy ∧ w.e = s.work.e ∧ w.row = s.work.row ∧ w.col = s.work.col ∧
          w.addr = s.work.addr) ∧
        (∀ px py : Int, onScreen px py = true →
          (fbGet m px py = true ↔ fbGet s.fb px py = true ∨ (px, py) ∈ points)) ∧
        ∀ i : Nat, (∀ p ∈ points, pixelIndex p.1 p.2 ≠ i) → m.read i = s.fb.read i) ∧
    ∀ a b : Int, exec (.line x0 y0 x1 y1) s = .fault (.lineOffScreen a b) ↔
      ∃ before after, points = before ++ (a, b) :: after ∧
        (∀ p ∈ before, onScreen p.1 p.2 = true) ∧ onScreen a b = false

/-- At the top of every iteration of LINE `0 ≤ err < deltax`, `y` is between the endpoints' minor coordinates, `x`
has not reached `x1`, and every register lies in [-65535, 65535] (43_rasterizer_line section 3, 10_state
section 2). -/
def Obligations.LineLoopInvariant : Prop :=
  ∀ (x0 y0 x1 y1 : Int) (w : Work) (k : Nat), (Instr.line x0 y0 x1 y1).wf = true →
    let start := lineStart x0 y0 x1 y1 w
    let r := lineAfter k start
    k < lineCount start →
      0 ≤ r.deltay ∧ r.deltay ≤ r.deltax ∧ 0 ≤ r.err ∧ r.err < r.deltax ∧ r.x = r.x0 + k ∧ r.x < r.x1 ∧
      min r.y0 r.y1 ≤ r.y ∧ r.y ≤ max r.y0 r.y1 ∧
      ∀ v ∈ [r.x0, r.y0, r.x1, r.y1, r.deltax, r.deltay, r.err, r.err - r.deltay, r.x, r.y],
        -65535 ≤ v ∧ v ≤ 65535

/-! ## CIRCLE -/

/-- CIRCLE completes for every operand and configuration: it lights those of its points that lie on the screen, and
besides them changes its own registers and the record of its contract (log 13) only; every byte that holds none of
them stays (44_rasterizer_circle sections 1 and 3; the adjustment is decision D16, log 6). -/
def Obligations.CircleCompletesAlways : Prop :=
  ∀ (cx cy radius : Int) (s : State),
    let points := circleDrawn s.cfg.circleStep cx cy radius s.work
    ∃ (m : Memory) (w : Work),
      exec (.circle cx cy radius) s = .next { s with
        fb := m
        work := { s.work with cx := w.cx, cy := w.cy, x := w.x, y := w.y, e := w.e }
        contracts := { s.contracts with radius := s.contracts.radius || decide (radius < 0) } } ∧
      (∀ px py : Int, onScreen px py = true →
        (fbGet m px py = true ↔ fbGet s.fb px py = true ∨ (px, py) ∈ points)) ∧
      ∀ i : Nat, (∀ p ∈ points, onScreen p.1 p.2 = true → pixelIndex p.1 p.2 ≠ i) →
        m.read i = s.fb.read i

/-- For `radius ≥ 1` the four axis points that lie on the screen are lit, whichever error adjustment is built in
(44_rasterizer_circle section 2). -/
def Obligations.CircleIncludesItsAxisPoints : Prop :=
  ∀ (cx cy radius : Int) (s t : State), 1 ≤ radius → exec (.circle cx cy radius) s = .next t →
    (onScreen (cx + radius) cy = true → fbGet t.fb (cx + radius) cy = true) ∧
    (onScreen (cx - radius) cy = true → fbGet t.fb (cx - radius) cy = true) ∧
    (onScreen cx (cy + radius) = true → fbGet t.fb cx (cy + radius) = true) ∧
    (onScreen cx (cy - radius) = true → fbGet t.fb cx (cy - radius) = true)

/-- Every pixel a circle lights has an offset (dx, dy) with `|dx² + dy² - radius²| ≤ radius`, so it rounds to about
the radius, with either error adjustment (44_rasterizer_circle sections 1 and 3; the adjustment is decision D16,
log 6). -/
def Obligations.CirclePixelsLieNearTheCircle : Prop :=
  ∀ (cx cy radius : Int) (s t : State), 0 ≤ radius → blank s.fb → exec (.circle cx cy radius) s = .next t →
    ∀ px py : Int, onScreen px py = true → fbGet t.fb px py = true →
      |(px - cx) ^ 2 + (py - cy) ^ 2 - radius ^ 2| ≤ radius

/-- What a circle of radius at least 0 draws on a blank framebuffer is eightfold symmetric about its centre: of a lit
pixel each of the other seven images that lies on the screen is lit, whether or not the images between them do
(44_rasterizer_circle sections 1 and 2). -/
def Obligations.CircleIsEightfoldSymmetric : Prop :=
  ∀ (cx cy radius : Int) (s t : State), 0 ≤ radius → blank s.fb → exec (.circle cx cy radius) s = .next t →
    ∀ a b : Int, onScreen (cx + a) (cy + b) = true → fbGet t.fb (cx + a) (cy + b) = true →
      (onScreen (cx - a) (cy + b) = true → fbGet t.fb (cx - a) (cy + b) = true) ∧
      (onScreen (cx + a) (cy - b) = true → fbGet t.fb (cx + a) (cy - b) = true) ∧
      (onScreen (cx - a) (cy - b) = true → fbGet t.fb (cx - a) (cy - b) = true) ∧
      (onScreen (cx + b) (cy + a) = true → fbGet t.fb (cx + b) (cy + a) = true) ∧
      (onScreen (cx - b) (cy + a) = true → fbGet t.fb (cx - b) (cy + a) = true) ∧
      (onScreen (cx + b) (cy - a) = true → fbGet t.fb (cx + b) (cy - a) = true) ∧
      (onScreen (cx - b) (cy - a) = true → fbGet t.fb (cx - b) (cy - a) = true)

/-- The error term at the top of every iteration: `x² - x + y² - radius²` with variant A, `x² + y² - radius² -
radius` with variant B (44_rasterizer_circle section 1, decision D16, log 6). -/
def Obligations.CircleErrorTermIsTheMidpoint : Prop :=
  ∀ (cx cy radius : Int) (w : Work) (k : Nat),
    let a := circleAfter .variantA k (circleStart cx cy radius w)
    let b := circleAfter .variantB k (circleStart cx cy radius w)
    a.e = a.x ^ 2 - a.x + a.y ^ 2 - radius ^ 2 ∧ b.e = b.x ^ 2 + b.y ^ 2 - radius ^ 2 - radius

/-- The circle's loop ends after at most `radius` iterations, with `x = y` or `x = y - 1`, and its registers fit the
datapath (44_rasterizer_circle section 2, 10_state section 2). -/
def Obligations.CircleLoopEnds : Prop :=
  ∀ (cx cy radius : Int) (s t : State), (Instr.circle cx cy radius).wf = true → 0 ≤ radius →
    exec (.circle cx cy radius) s = .next t →
      (t.work.x = t.work.y ∨ t.work.x = t.work.y - 1) ∧ 0 ≤ t.work.y ∧ t.work.y ≤ radius ∧
      t.work.x ≤ radius ∧ |t.work.e| ≤ 2 * radius + 1

/-- A negative radius lights the two points `(cx ± radius, cy)` and records the contract (44_rasterizer_circle
section 3, decision D25, log 13). -/
def Obligations.NegativeRadiusLightsTwoPoints : Prop :=
  ∀ (cx cy radius : Int) (s : State), radius < 0 →
    ∃ t, exec (.circle cx cy radius) s = .next t ∧ t.contracts.radius = true ∧
      ∀ px py : Int, onScreen px py = true →
        (fbGet t.fb px py = true ↔ fbGet s.fb px py = true ∨
          (py = cy ∧ (px = cx + radius ∨ px = cx - radius)))

/-! ## REFRESH -/

/-- REFRESH (45_refresh_pump sections 1 and 2): opcode 0x50; exactly 1152 frames: for row 0 to 63 the row select, the bank
select and sixteen data frames carrying the row's bytes; 3456 bytes and 1152 settle holds; `FB`, `MODE`, `RSTLINE`
unchanged. The record of the mode contract is the model's (log 15). -/
def Obligations.RefreshSendsItsFrames : Prop :=
  (∀ a b c d : Field, decode (.command (0x50#8 ++ a ++ b ++ c ++ d)) = .ok .refresh) ∧
  ∀ s : State, s.busAllows 3456 = true →
    ∃ (es : List Event) (is : List Item) (w : Work),
      exec .refresh s = .next { s with
        trace := s.trace ++ es
        work := { s.work with
          fsync := w.fsync, fval := w.fval, fidx := w.fidx, row := w.row, col := w.col }
        bus := s.bus.map (· - 3456)
        seq := .idle
        inFlight := none
        contracts := { s.contracts with mode := s.contracts.mode || s.mode != .graphics } } ∧
      items es = some is ∧ is.length = 1152 ∧ (bytesOf es).length = 3456 ∧
      es.count (.hold .settle) = 1152 ∧ es.length = 4608 ∧ holdTime s.cfg es = 1152 * s.cfg.tSettle ∧
      (∀ row : Nat, row < 64 →
        is[18 * row]? = some (.frame .instruction (s.cfg.opRowSelect ||| (BitVec.ofNat 8 row &&& 0x1F))) ∧
        is[18 * row + 1]? =
          some (.frame .instruction (if row < 32 then s.cfg.opBank0 else s.cfg.opBank1)) ∧
        ∀ col : Nat, col < 16 → is[18 * row + 2 + col]? = some (.frame .data (s.fb.read (16 * row + col))))

/-- The data frames of a REFRESH carry `FB[0], ..., FB[1023]`, each byte exactly once, in order
(45_refresh_pump section 2). -/
def Obligations.RefreshSendsEveryByteOnce : Prop :=
  ∀ s t : State, s.busAllows 3456 = true → exec .refresh s = .next t →
    ∃ es is, t.trace = s.trace ++ es ∧ items es = some is ∧
      (framesOf is).filterMap (fun f => if f.1 = .data then some f.2 else none) =
        (List.range 1024).map s.fb.read

/-! ## Waiting for the bus -/

/-- A command the bus leaves hanging has emitted a prefix of its trace, one byte is in flight, `FB` and `MODE` are as
before, and so is `RSTLINE`, but for RESET, which has driven it high before its first byte (10_state sections 1 and 4,
41_mode section 1, 60_exceptions section 1; decision D20, log 7). -/
def Obligations.HungCommandLeavesAPrefix : Prop :=
  ∀ (i : Instr) (s t : State), s.seq = .idle → exec i s = .next t → t.seq ≠ .idle →
    t.fb = s.fb ∧ t.mode = s.mode ∧ t.bus = some 0 ∧
    (i ≠ .reset → t.rstLine = s.rstLine) ∧ (i = .reset → t.rstLine = true) ∧
    ∃ (n : Nat) (v : Byte) (es : List Event) (u : State),
      t.seq = .busy i n ∧ t.inFlight = some v ∧ t.trace = s.trace ++ es ∧
      s.bus = some (bytesOf es).length ∧
      exec i { s with bus := none } = .next u ∧ u.seq = .idle ∧ (t.trace ++ [.byte v]) <+: u.trace

/-- While the environment neither completes the byte nor resets the block, the waiting block stays exactly as it is,
whatever words are presented (10_state section 4, decision D20, log 20). -/
def Obligations.WaitingBlockStays : Prop :=
  ∀ s : State, s.seqOk = true → s.seq ≠ .idle → (∀ i ∈ s.inputs, i.carried.isSome = true) → step s = .next s

/-- When the environment does complete more bytes, the waiting command goes on as if it had never waited: the run
with the completions given in two parts is the run with their sum (10_state sections 2 and 4, decision D20,
log 1, 7). -/
def Obligations.WaitingChangesNothing : Prop :=
  ∀ (i : Instr) (s t : State) (first more n : Nat), s.seq = .idle →
    exec i { s with bus := some first } = .next t → t.seq = .busy i n →
    step { t with inputs := .busReady more :: t.inputs } = exec i { s with bus := some (first + more) }

/-- While a command runs no word is accepted and `FB` does not change, so every REFRESH sends a consistent snapshot
(10_state section 3, 70_reset section 3). -/
def Obligations.BusyBlockAcceptsNoWord : Prop :=
  ∀ s t : State, s.seq ≠ .idle → step s = .next t →
    wordsOf t.inputs = wordsOf s.inputs ∧ t.fb = s.fb

/-! ## The whole machine -/

/-- The power-on state (10_state section 5, decision D6): `MODE` Uninitialized, idle and ready, nothing in flight, an
empty trace, and a framebuffer of free bytes. -/
def Obligations.PowerOnState : Prop :=
  State.reset.mode = .uninitialized ∧ State.reset.seq = .idle ∧ State.reset.cmdReady = true ∧
    State.reset.inFlight = none ∧ State.reset.trace = [] ∧
    ∀ i : Nat, State.reset.fb.read i = Config.powerOnByte i

/-- `rst_n` (70_reset section 1, decision D24; how it lands is the model's, log 8, 16). By itself, or after more
completions: whatever runs is abandoned, `MODE` is Uninitialized and the block idle, with `FB`, `RSTLINE` and the trace
kept. Inside a command: the trace has a part of the command's events, `RSTLINE` the level of the last reset-line event
of that part, each bit of `FB` is as before the command or as the whole command leaves it, and every point of the
command's trace can be that moment; FB_CLEAR, LINE and CIRCLE have done their first `k` writes, in the order of the
pseudocode (log 27). While a command waits: a part of the events still to come is emitted, no more bytes than the
environment completes. -/
def Obligations.ResetPinRestoresPowerOn : Prop :=
  (∀ (s : State) (rest : List Input), s.inputs = .resetPin :: rest →
    step s = .next { s with
      inputs := rest
      mode := .uninitialized
      seq := .idle
      inFlight := none
      contracts := { s.contracts with abandoned := s.contracts.abandoned || s.seq != .idle } }) ∧
  (∀ (s : State) (n k : Nat) (rest : List Input), s.seq = .idle → s.inputs = .readyCut n k :: rest →
    step s = .next { s with
      inputs := rest, mode := .uninitialized, inFlight := none, bus := s.bus.map (· + n) }) ∧
  (∀ (s u : State) (w : CmdWord) (k : Nat) (rest : List Input) (i : Instr), s.seq = .idle →
    s.inputs = .wordCut w k :: rest → decode (.command w) = .ok i →
    exec i { s with inputs := rest, bus := none } = .next u →
    ∃ (t : State) (es : List Event), step s = .next t ∧ t.mode = .uninitialized ∧ t.seq = .idle ∧
      t.inFlight = none ∧ t.inputs = rest ∧ t.cfg = s.cfg ∧ t.trace = s.trace ++ es ∧ t.trace <+: u.trace ∧
      t.rstLine = lineLevel s.rstLine es ∧
      (∀ j b : Nat, (t.fb.read j).getLsbD b = (s.fb.read j).getLsbD b ∨
        (t.fb.read j).getLsbD b = (u.fb.read j).getLsbD b) ∧
      (t.contracts.abandoned = false → t.trace = u.trace ∧ t.fb = u.fb)) ∧
  (∀ (s u : State) (w : CmdWord) (rest : List Input) (i : Instr) (es : List Event), s.seq = .idle →
    s.bus = none → decode (.command w) = .ok i → exec i { s with inputs := rest } = .next u →
    (s.trace ++ es) <+: u.trace →
    ∃ (k : Nat) (t : State), step { s with inputs := .wordCut w k :: rest } = .next t ∧
      t.trace = s.trace ++ es ∧ t.rstLine = lineLevel s.rstLine es) ∧
  (∀ (s : State) (w : CmdWord) (k : Nat) (rest : List Input), s.seq = .idle → s.inputs = .wordCut w k :: rest →
    (decode (.command w) = .ok .fbClear → k ≤ 1024 →
      ∃ t, step s = .next t ∧ t.trace = s.trace ∧ t.rstLine = s.rstLine ∧
        (∀ j : Nat, j < k → t.fb.read j = 0) ∧
        ∀ j : Nat, k ≤ j → j < 1024 → t.fb.read j = s.fb.read j) ∧
    (∀ x0 y0 x1 y1 : Int, decode (.command w) = .ok (.line x0 y0 x1 y1) →
      (∀ p ∈ (lineDrawn x0 y0 x1 y1 s.work).take k, onScreen p.1 p.2 = true) →
      ∃ t, step s = .next t ∧ t.trace = s.trace ∧ t.rstLine = s.rstLine ∧
        ∀ px py : Int, onScreen px py = true → (fbGet t.fb px py = true ↔
          fbGet s.fb px py = true ∨ (px, py) ∈ (lineDrawn x0 y0 x1 y1 s.work).take k)) ∧
    ∀ cx cy radius : Int, decode (.command w) = .ok (.circle cx cy radius) →
      ∃ t, step s = .next t ∧ t.trace = s.trace ∧ t.rstLine = s.rstLine ∧
        ∀ px py : Int, onScreen px py = true → (fbGet t.fb px py = true ↔
          fbGet s.fb px py = true ∨
            (px, py) ∈ (circleDrawn s.cfg.circleStep cx cy radius s.work).take k)) ∧
  ∀ (s : State) (op : Instr) (n m k : Nat) (rest : List Input), s.seq = .busy op n → s.bus = some 0 →
    s.inputs = .readyCut m k :: rest →
    ∃ (t : State) (es : List Event), step s = .next t ∧ t.mode = .uninitialized ∧ t.seq = .idle ∧
      t.inFlight = none ∧ t.inputs = rest ∧ t.fb = s.fb ∧ t.trace = s.trace ++ es ∧ es <+: s.pendingEvents ∧
      (bytesOf es).length ≤ m ∧ t.rstLine = lineLevel s.rstLine es ∧
      (t.contracts.abandoned = false → es = s.pendingEvents)

/-- No step changes a build-time parameter: delays, opcode bytes and geometry are "not tunable" (10_state
section 2). -/
def Obligations.ParametersNeverChange : Prop :=
  ∀ s t : State, step s = .next t → t.cfg = s.cfg

/-- The working registers are written before they are read: nothing outside them depends on what they held
(10_state section 2). -/
def Obligations.WorkRegistersAreNeverObserved : Prop :=
  ∀ (i : Instr) (s : State) (w : Work), alike sameButWork (exec i s) (exec i { s with work := w })

/-- The power-on state meets the invariant. -/
def Obligations.ResetMeetsInvariant : Prop := State.reset.Inv

/-- Every step keeps the invariant: canonical memory, registers within their widths, a consistent sequencer, and a
trace of whole frames (10_state R27, R30, R31, R36; 40_bus R117). -/
def Obligations.StepKeepsInvariant : Prop :=
  ∀ s t : State, s.Inv → step s = .next t → t.Inv
end

