-- ==== Sys2Proof/Laws/Decode.lean ====
section
/-! SUPPORT. The fields of a command word and of a frame word, read back, and integers in 16-bit fields. -/

namespace Sys2Proof

/-- A 16-bit operand survives its field (30_encoding R88 e). -/
theorem toField_toInt {v : Int} (h : fitsField v = true) : (toField v).toInt = v := by
  simp [fitsField] at h
  simp only [toField, BitVec.toInt_ofInt]
  rw [Int.bmod_eq_of_le] <;> omega

/-- What a field reads as always fits it. -/
theorem fitsField_toInt (f : Field) : fitsField f.toInt = true := by
  have h1 := BitVec.two_mul_toInt_lt (x := f)
  have h2 := BitVec.le_two_mul_toInt (x := f)
  simp [fitsField]
  omega

@[simp] theorem opcodeOf_commandWord (op : Byte) (a b c d : Field) : opcodeOf (commandWord op a b c d) = op := by
  unfold opcodeOf commandWord
  ext i hi
  simp [BitVec.getElem_extractLsb']
  grind

@[simp] theorem fieldA_commandWord (op : Byte) (a b c d : Field) : fieldA (commandWord op a b c d) = a := by
  unfold fieldA commandWord
  ext i hi
  simp [BitVec.getElem_extractLsb']
  grind

@[simp] theorem fieldB_commandWord (op : Byte) (a b c d : Field) : fieldB (commandWord op a b c d) = b := by
  unfold fieldB commandWord
  ext i hi
  simp [BitVec.getElem_extractLsb']
  grind

@[simp] theorem fieldC_commandWord (op : Byte) (a b c d : Field) : fieldC (commandWord op a b c d) = c := by
  unfold fieldC commandWord
  ext i hi
  simp [BitVec.getElem_extractLsb']
  grind

@[simp] theorem fieldD_commandWord (op : Byte) (a b c d : Field) : fieldD (commandWord op a b c d) = d := by
  unfold fieldD commandWord
  ext i hi
  simp [BitVec.getElem_extractLsb']
  grind

/-- The byte operand of a field is its low byte (30_encoding R88 f). -/
theorem lowByte_eq (f : Field) : lowByte f = f.setWidth 8 := by
  unfold lowByte
  ext i hi
  simp [BitVec.getElem_extractLsb']

@[simp] theorem lowByte_setWidth (b : Byte) : lowByte (b.setWidth 16) = b := by
  rw [lowByte_eq]
  ext i hi
  simp

/-- A frame word decodes to its nibbles (30_encoding R81). -/
theorem decodeFrame_frameWord (h l : Nibble) :
    decodeFrame (frameWord 0xF8 h l) = .ok (.frameInstr h l) ∧
      decodeFrame (frameWord 0xFA h l) = .ok (.frameData h l) := by
  have : ∀ h l : Nibble, decodeFrame (frameWord 0xF8 h l) = .ok (.frameInstr h l) ∧
      decodeFrame (frameWord 0xFA h l) = .ok (.frameData h l) := by decide
  exact this h l

end Sys2Proof
end

