-- ==== Sys2Proof/Laws/State.lean ====
section
/-! SUPPORT. One lemma per field per update of the state, each true by unfolding the update once. -/

namespace Sys2Proof.Machine

@[simp] theorem noteMode_cfg (s : State) (i : Instr) : (s.noteMode i).cfg = s.cfg := rfl

@[simp] theorem noteMode_fb (s : State) (i : Instr) : (s.noteMode i).fb = s.fb := rfl

@[simp] theorem noteMode_mode (s : State) (i : Instr) : (s.noteMode i).mode = s.mode := rfl

@[simp] theorem noteMode_rstLine (s : State) (i : Instr) : (s.noteMode i).rstLine = s.rstLine := rfl

@[simp] theorem noteMode_seq (s : State) (i : Instr) : (s.noteMode i).seq = s.seq := rfl

@[simp] theorem noteMode_work (s : State) (i : Instr) : (s.noteMode i).work = s.work := rfl

@[simp] theorem noteMode_inFlight (s : State) (i : Instr) : (s.noteMode i).inFlight = s.inFlight := rfl

@[simp] theorem noteMode_trace (s : State) (i : Instr) : (s.noteMode i).trace = s.trace := rfl

@[simp] theorem noteMode_inputs (s : State) (i : Instr) : (s.noteMode i).inputs = s.inputs := rfl

@[simp] theorem noteMode_bus (s : State) (i : Instr) : (s.noteMode i).bus = s.bus := rfl

@[simp] theorem noteMode_contracts (s : State) (i : Instr) : (s.noteMode i).contracts = { s.contracts with mode := s.contracts.mode || !modeLegal i s.mode } := rfl

@[simp] theorem noteColumn_cfg (s : State) (c : Int) : (s.noteColumn c).cfg = s.cfg := rfl

@[simp] theorem noteColumn_fb (s : State) (c : Int) : (s.noteColumn c).fb = s.fb := rfl

@[simp] theorem noteColumn_mode (s : State) (c : Int) : (s.noteColumn c).mode = s.mode := rfl

@[simp] theorem noteColumn_rstLine (s : State) (c : Int) : (s.noteColumn c).rstLine = s.rstLine := rfl

@[simp] theorem noteColumn_seq (s : State) (c : Int) : (s.noteColumn c).seq = s.seq := rfl

@[simp] theorem noteColumn_work (s : State) (c : Int) : (s.noteColumn c).work = s.work := rfl

@[simp] theorem noteColumn_inFlight (s : State) (c : Int) : (s.noteColumn c).inFlight = s.inFlight := rfl

@[simp] theorem noteColumn_trace (s : State) (c : Int) : (s.noteColumn c).trace = s.trace := rfl

@[simp] theorem noteColumn_inputs (s : State) (c : Int) : (s.noteColumn c).inputs = s.inputs := rfl

@[simp] theorem noteColumn_bus (s : State) (c : Int) : (s.noteColumn c).bus = s.bus := rfl

@[simp] theorem noteColumn_contracts (s : State) (c : Int) : (s.noteColumn c).contracts = { s.contracts with column := s.contracts.column || !columnLegal c } := rfl

@[simp] theorem noteEndpoints_cfg (s : State) (a b c d : Int) : (s.noteEndpoints a b c d).cfg = s.cfg := rfl

@[simp] theorem noteEndpoints_fb (s : State) (a b c d : Int) : (s.noteEndpoints a b c d).fb = s.fb := rfl

@[simp] theorem noteEndpoints_mode (s : State) (a b c d : Int) : (s.noteEndpoints a b c d).mode = s.mode := rfl

@[simp] theorem noteEndpoints_rstLine (s : State) (a b c d : Int) : (s.noteEndpoints a b c d).rstLine = s.rstLine := rfl

@[simp] theorem noteEndpoints_seq (s : State) (a b c d : Int) : (s.noteEndpoints a b c d).seq = s.seq := rfl

@[simp] theorem noteEndpoints_work (s : State) (a b c d : Int) : (s.noteEndpoints a b c d).work = s.work := rfl

@[simp] theorem noteEndpoints_inFlight (s : State) (a b c d : Int) : (s.noteEndpoints a b c d).inFlight = s.inFlight := rfl

@[simp] theorem noteEndpoints_trace (s : State) (a b c d : Int) : (s.noteEndpoints a b c d).trace = s.trace := rfl

@[simp] theorem noteEndpoints_inputs (s : State) (a b c d : Int) : (s.noteEndpoints a b c d).inputs = s.inputs := rfl

@[simp] theorem noteEndpoints_bus (s : State) (a b c d : Int) : (s.noteEndpoints a b c d).bus = s.bus := rfl

@[simp] theorem noteEndpoints_contracts (s : State) (a b c d : Int) : (s.noteEndpoints a b c d).contracts = { s.contracts with endpoint := s.contracts.endpoint || !endpointsLegal a b c d } := rfl

@[simp] theorem noteRadius_cfg (s : State) (r : Int) : (s.noteRadius r).cfg = s.cfg := rfl

@[simp] theorem noteRadius_fb (s : State) (r : Int) : (s.noteRadius r).fb = s.fb := rfl

@[simp] theorem noteRadius_mode (s : State) (r : Int) : (s.noteRadius r).mode = s.mode := rfl

@[simp] theorem noteRadius_rstLine (s : State) (r : Int) : (s.noteRadius r).rstLine = s.rstLine := rfl

@[simp] theorem noteRadius_seq (s : State) (r : Int) : (s.noteRadius r).seq = s.seq := rfl

@[simp] theorem noteRadius_work (s : State) (r : Int) : (s.noteRadius r).work = s.work := rfl

@[simp] theorem noteRadius_inFlight (s : State) (r : Int) : (s.noteRadius r).inFlight = s.inFlight := rfl

@[simp] theorem noteRadius_trace (s : State) (r : Int) : (s.noteRadius r).trace = s.trace := rfl

@[simp] theorem noteRadius_inputs (s : State) (r : Int) : (s.noteRadius r).inputs = s.inputs := rfl

@[simp] theorem noteRadius_bus (s : State) (r : Int) : (s.noteRadius r).bus = s.bus := rfl

@[simp] theorem noteRadius_contracts (s : State) (r : Int) : (s.noteRadius r).contracts = { s.contracts with radius := s.contracts.radius || !radiusLegal r } := rfl

@[simp] theorem noteOperands_cfg (s : State) (i : Instr) : (s.noteOperands i).cfg = s.cfg := by cases i <;> rfl

@[simp] theorem noteOperands_fb (s : State) (i : Instr) : (s.noteOperands i).fb = s.fb := by cases i <;> rfl

@[simp] theorem noteOperands_mode (s : State) (i : Instr) : (s.noteOperands i).mode = s.mode := by cases i <;> rfl

@[simp] theorem noteOperands_rstLine (s : State) (i : Instr) : (s.noteOperands i).rstLine = s.rstLine := by cases i <;> rfl

@[simp] theorem noteOperands_seq (s : State) (i : Instr) : (s.noteOperands i).seq = s.seq := by cases i <;> rfl

@[simp] theorem noteOperands_work (s : State) (i : Instr) : (s.noteOperands i).work = s.work := by cases i <;> rfl

@[simp] theorem noteOperands_inFlight (s : State) (i : Instr) : (s.noteOperands i).inFlight = s.inFlight := by cases i <;> rfl

@[simp] theorem noteOperands_trace (s : State) (i : Instr) : (s.noteOperands i).trace = s.trace := by cases i <;> rfl

@[simp] theorem noteOperands_inputs (s : State) (i : Instr) : (s.noteOperands i).inputs = s.inputs := by cases i <;> rfl

@[simp] theorem noteOperands_bus (s : State) (i : Instr) : (s.noteOperands i).bus = s.bus := by cases i <;> rfl

@[simp] theorem accepted_cfg (s : State) (i : Instr) : (s.accepted i).cfg = s.cfg := by simp [State.accepted]

@[simp] theorem accepted_fb (s : State) (i : Instr) : (s.accepted i).fb = s.fb := by simp [State.accepted]

@[simp] theorem accepted_mode (s : State) (i : Instr) : (s.accepted i).mode = s.mode := by simp [State.accepted]

@[simp] theorem accepted_rstLine (s : State) (i : Instr) : (s.accepted i).rstLine = s.rstLine := by simp [State.accepted]

@[simp] theorem accepted_seq (s : State) (i : Instr) : (s.accepted i).seq = s.seq := by simp [State.accepted]

@[simp] theorem accepted_work (s : State) (i : Instr) : (s.accepted i).work = s.work := by simp [State.accepted]

@[simp] theorem accepted_inFlight (s : State) (i : Instr) : (s.accepted i).inFlight = s.inFlight := by simp [State.accepted]

@[simp] theorem accepted_trace (s : State) (i : Instr) : (s.accepted i).trace = s.trace := by simp [State.accepted]

@[simp] theorem accepted_inputs (s : State) (i : Instr) : (s.accepted i).inputs = s.inputs := by simp [State.accepted]

@[simp] theorem accepted_bus (s : State) (i : Instr) : (s.accepted i).bus = s.bus := by simp [State.accepted]

@[simp] theorem grant_cfg (s : State) (n : Nat) : (s.grant n).cfg = s.cfg := rfl

@[simp] theorem grant_fb (s : State) (n : Nat) : (s.grant n).fb = s.fb := rfl

@[simp] theorem grant_mode (s : State) (n : Nat) : (s.grant n).mode = s.mode := rfl

@[simp] theorem grant_rstLine (s : State) (n : Nat) : (s.grant n).rstLine = s.rstLine := rfl

@[simp] theorem grant_seq (s : State) (n : Nat) : (s.grant n).seq = s.seq := rfl

@[simp] theorem grant_work (s : State) (n : Nat) : (s.grant n).work = s.work := rfl

@[simp] theorem grant_inFlight (s : State) (n : Nat) : (s.grant n).inFlight = s.inFlight := rfl

@[simp] theorem grant_trace (s : State) (n : Nat) : (s.grant n).trace = s.trace := rfl

@[simp] theorem grant_inputs (s : State) (n : Nat) : (s.grant n).inputs = s.inputs := rfl

@[simp] theorem grant_bus (s : State) (n : Nat) : (s.grant n).bus = s.bus.map (· + n) := rfl

@[simp] theorem grant_contracts (s : State) (n : Nat) : (s.grant n).contracts = s.contracts := rfl

@[simp] theorem blockReset_cfg (s : State) : (s.blockReset).cfg = s.cfg := rfl

@[simp] theorem blockReset_fb (s : State) : (s.blockReset).fb = s.fb := rfl

@[simp] theorem blockReset_mode (s : State) : (s.blockReset).mode = .uninitialized := rfl

@[simp] theorem blockReset_rstLine (s : State) : (s.blockReset).rstLine = s.rstLine := rfl

@[simp] theorem blockReset_seq (s : State) : (s.blockReset).seq = .idle := rfl

@[simp] theorem blockReset_work (s : State) : (s.blockReset).work = s.work := rfl

@[simp] theorem blockReset_inFlight (s : State) : (s.blockReset).inFlight = none := rfl

@[simp] theorem blockReset_trace (s : State) : (s.blockReset).trace = s.trace := rfl

@[simp] theorem blockReset_inputs (s : State) : (s.blockReset).inputs = s.inputs := rfl

@[simp] theorem blockReset_bus (s : State) : (s.blockReset).bus = s.bus := rfl

@[simp] theorem blockReset_contracts (s : State) : (s.blockReset).contracts = { s.contracts with abandoned := s.contracts.abandoned || s.busy } := rfl

@[simp] theorem withFetchWord_cfg (s : State) (n w : Nat) : (s.withFetchWord n w).cfg = s.cfg := rfl

@[simp] theorem withFetchWord_fb (s : State) (n w : Nat) : (s.withFetchWord n w).fb = s.fb := rfl

@[simp] theorem withFetchWord_mode (s : State) (n w : Nat) : (s.withFetchWord n w).mode = s.mode := rfl

@[simp] theorem withFetchWord_rstLine (s : State) (n w : Nat) : (s.withFetchWord n w).rstLine = s.rstLine := rfl

@[simp] theorem withFetchWord_seq (s : State) (n w : Nat) : (s.withFetchWord n w).seq = .idle := rfl

@[simp] theorem withFetchWord_work (s : State) (n w : Nat) : (s.withFetchWord n w).work = s.work := rfl

@[simp] theorem withFetchWord_inFlight (s : State) (n w : Nat) : (s.withFetchWord n w).inFlight = none := rfl

@[simp] theorem withFetchWord_trace (s : State) (n w : Nat) : (s.withFetchWord n w).trace = s.trace := rfl

@[simp] theorem withFetchWord_inputs (s : State) (n w : Nat) : (s.withFetchWord n w).inputs = present (tableWord n w) :: s.inputs := rfl

@[simp] theorem withFetchWord_bus (s : State) (n w : Nat) : (s.withFetchWord n w).bus = s.bus := rfl

@[simp] theorem withFetchWord_contracts (s : State) (n w : Nat) : (s.withFetchWord n w).contracts = s.contracts := rfl

/-! ## One completed step of the sequencer -/

@[simp] theorem applyAct_cfg (s : State) (a : Act) : (applyAct s a).cfg = s.cfg := by cases a <;> rfl

@[simp] theorem applyAct_fb (s : State) (a : Act) : (applyAct s a).fb = s.fb := by cases a <;> rfl

@[simp] theorem applyAct_seq (s : State) (a : Act) : (applyAct s a).seq = s.seq := by cases a <;> rfl

@[simp] theorem applyAct_inFlight (s : State) (a : Act) : (applyAct s a).inFlight = s.inFlight := by cases a <;> rfl

@[simp] theorem applyAct_trace (s : State) (a : Act) : (applyAct s a).trace = s.trace := by cases a <;> rfl

@[simp] theorem applyAct_inputs (s : State) (a : Act) : (applyAct s a).inputs = s.inputs := by cases a <;> rfl

@[simp] theorem applyAct_contracts (s : State) (a : Act) : (applyAct s a).contracts = s.contracts := by cases a <;> rfl

/-! ## A list of completed steps -/

@[simp] theorem foldl_applyAct_cfg (acts : List Act) (s : State) :
    (acts.foldl applyAct s).cfg = s.cfg := by
  induction acts generalizing s with
  | nil => rfl
  | cons a rest ih => simp [ih]

@[simp] theorem foldl_applyAct_fb (acts : List Act) (s : State) :
    (acts.foldl applyAct s).fb = s.fb := by
  induction acts generalizing s with
  | nil => rfl
  | cons a rest ih => simp [ih]

@[simp] theorem foldl_applyAct_seq (acts : List Act) (s : State) :
    (acts.foldl applyAct s).seq = s.seq := by
  induction acts generalizing s with
  | nil => rfl
  | cons a rest ih => simp [ih]

@[simp] theorem foldl_applyAct_inFlight (acts : List Act) (s : State) :
    (acts.foldl applyAct s).inFlight = s.inFlight := by
  induction acts generalizing s with
  | nil => rfl
  | cons a rest ih => simp [ih]

@[simp] theorem foldl_applyAct_trace (acts : List Act) (s : State) :
    (acts.foldl applyAct s).trace = s.trace := by
  induction acts generalizing s with
  | nil => rfl
  | cons a rest ih => simp [ih]

@[simp] theorem foldl_applyAct_inputs (acts : List Act) (s : State) :
    (acts.foldl applyAct s).inputs = s.inputs := by
  induction acts generalizing s with
  | nil => rfl
  | cons a rest ih => simp [ih]

@[simp] theorem foldl_applyAct_contracts (acts : List Act) (s : State) :
    (acts.foldl applyAct s).contracts = s.contracts := by
  induction acts generalizing s with
  | nil => rfl
  | cons a rest ih => simp [ih]

@[simp] theorem runActs_cfg (acts : List Act) (s : State) : (runActs acts s).cfg = s.cfg := by
  simp [runActs]

@[simp] theorem runActs_fb (acts : List Act) (s : State) : (runActs acts s).fb = s.fb := by
  simp [runActs]

@[simp] theorem runActs_mode (acts : List Act) (s : State) :
    (runActs acts s).mode = (acts.foldl applyAct s).mode := rfl

@[simp] theorem runActs_rstLine (acts : List Act) (s : State) :
    (runActs acts s).rstLine = (acts.foldl applyAct s).rstLine := rfl

@[simp] theorem runActs_seq (acts : List Act) (s : State) : (runActs acts s).seq = s.seq := by
  simp [runActs]

@[simp] theorem runActs_work (acts : List Act) (s : State) :
    (runActs acts s).work = (acts.foldl applyAct s).work := rfl

@[simp] theorem runActs_inFlight (acts : List Act) (s : State) : (runActs acts s).inFlight = s.inFlight := by
  simp [runActs]

@[simp] theorem runActs_trace (acts : List Act) (s : State) :
    (runActs acts s).trace = s.trace ++ acts.filterMap Act.event := rfl

@[simp] theorem runActs_inputs (acts : List Act) (s : State) : (runActs acts s).inputs = s.inputs := by
  simp [runActs]

@[simp] theorem runActs_bus (acts : List Act) (s : State) :
    (runActs acts s).bus = (acts.foldl applyAct s).bus := rfl

@[simp] theorem runActs_contracts (acts : List Act) (s : State) : (runActs acts s).contracts = s.contracts := by
  simp [runActs]

/-! ## A command run for some of its steps -/

@[simp] theorem advance_cfg (s : State) (op : Instr) (n k : Nat) (acts : List Act) :
    (s.advance op n k acts).cfg = s.cfg := by
  unfold State.advance; dsimp only; split <;> simp

@[simp] theorem advance_fb (s : State) (op : Instr) (n k : Nat) (acts : List Act) :
    (s.advance op n k acts).fb = s.fb := by
  unfold State.advance; dsimp only; split <;> simp

@[simp] theorem advance_inputs (s : State) (op : Instr) (n k : Nat) (acts : List Act) :
    (s.advance op n k acts).inputs = s.inputs := by
  unfold State.advance; dsimp only; split <;> simp

@[simp] theorem advance_contracts (s : State) (op : Instr) (n k : Nat) (acts : List Act) :
    (s.advance op n k acts).contracts = s.contracts := by
  unfold State.advance; dsimp only; split <;> simp

theorem advance_mode (s : State) (op : Instr) (n k : Nat) (acts : List Act) :
    (s.advance op n k acts).mode = ((acts.take k).foldl applyAct s).mode := by
  unfold State.advance; dsimp only; split <;> simp

theorem advance_rstLine (s : State) (op : Instr) (n k : Nat) (acts : List Act) :
    (s.advance op n k acts).rstLine = ((acts.take k).foldl applyAct s).rstLine := by
  unfold State.advance; dsimp only; split <;> simp

theorem advance_work (s : State) (op : Instr) (n k : Nat) (acts : List Act) :
    (s.advance op n k acts).work = ((acts.take k).foldl applyAct s).work := by
  unfold State.advance; dsimp only; split <;> simp

theorem advance_bus (s : State) (op : Instr) (n k : Nat) (acts : List Act) :
    (s.advance op n k acts).bus = ((acts.take k).foldl applyAct s).bus := by
  unfold State.advance; dsimp only; split <;> simp

theorem advance_trace (s : State) (op : Instr) (n k : Nat) (acts : List Act) :
    (s.advance op n k acts).trace = s.trace ++ (acts.take k).filterMap Act.event := by
  unfold State.advance; dsimp only; split <;> simp

/-- Idle again exactly when all the steps are done. -/
theorem advance_seq_idle_iff (s : State) (op : Instr) (n k : Nat) (acts : List Act) :
    (s.advance op n k acts).seq = .idle ↔ acts.length ≤ k := by
  rw [← List.drop_eq_nil_iff]
  unfold State.advance; dsimp only; split <;> simp [*]

/-! ## A command run as far as the bus and the pin let it -/

@[simp] theorem proceed_cfg (s : State) (op : Instr) (n : Nat) (acts : List Act) :
    (s.proceed op n acts).cfg = s.cfg := advance_cfg ..

@[simp] theorem proceed_fb (s : State) (op : Instr) (n : Nat) (acts : List Act) :
    (s.proceed op n acts).fb = s.fb := advance_fb ..

@[simp] theorem proceed_inputs (s : State) (op : Instr) (n : Nat) (acts : List Act) :
    (s.proceed op n acts).inputs = s.inputs := advance_inputs ..

@[simp] theorem proceed_contracts (s : State) (op : Instr) (n : Nat) (acts : List Act) :
    (s.proceed op n acts).contracts = s.contracts := advance_contracts ..

theorem proceed_mode (s : State) (op : Instr) (n : Nat) (acts : List Act) :
    (s.proceed op n acts).mode = ((acts.take (reach s.bus acts)).foldl applyAct s).mode := advance_mode ..

theorem proceed_rstLine (s : State) (op : Instr) (n : Nat) (acts : List Act) :
    (s.proceed op n acts).rstLine = ((acts.take (reach s.bus acts)).foldl applyAct s).rstLine := advance_rstLine ..

theorem proceed_work (s : State) (op : Instr) (n : Nat) (acts : List Act) :
    (s.proceed op n acts).work = ((acts.take (reach s.bus acts)).foldl applyAct s).work := advance_work ..

theorem proceed_bus (s : State) (op : Instr) (n : Nat) (acts : List Act) :
    (s.proceed op n acts).bus = ((acts.take (reach s.bus acts)).foldl applyAct s).bus := advance_bus ..

theorem proceed_trace (s : State) (op : Instr) (n : Nat) (acts : List Act) :
    (s.proceed op n acts).trace =
      s.trace ++ (acts.take (reach s.bus acts)).filterMap Act.event := advance_trace ..

@[simp] theorem proceedWithin_cfg (s : State) (op : Instr) (n k : Nat) (acts : List Act) :
    (s.proceedWithin op n k acts).cfg = s.cfg := advance_cfg ..

@[simp] theorem proceedWithin_fb (s : State) (op : Instr) (n k : Nat) (acts : List Act) :
    (s.proceedWithin op n k acts).fb = s.fb := advance_fb ..

@[simp] theorem proceedWithin_inputs (s : State) (op : Instr) (n k : Nat) (acts : List Act) :
    (s.proceedWithin op n k acts).inputs = s.inputs := advance_inputs ..

@[simp] theorem proceedWithin_contracts (s : State) (op : Instr) (n k : Nat) (acts : List Act) :
    (s.proceedWithin op n k acts).contracts = s.contracts := advance_contracts ..

theorem proceedWithin_mode (s : State) (op : Instr) (n k : Nat) (acts : List Act) :
    (s.proceedWithin op n k acts).mode = ((acts.take (min k (reach s.bus acts))).foldl applyAct s).mode := advance_mode ..

theorem proceedWithin_rstLine (s : State) (op : Instr) (n k : Nat) (acts : List Act) :
    (s.proceedWithin op n k acts).rstLine = ((acts.take (min k (reach s.bus acts))).foldl applyAct s).rstLine := advance_rstLine ..

theorem proceedWithin_work (s : State) (op : Instr) (n k : Nat) (acts : List Act) :
    (s.proceedWithin op n k acts).work = ((acts.take (min k (reach s.bus acts))).foldl applyAct s).work := advance_work ..

theorem proceedWithin_bus (s : State) (op : Instr) (n k : Nat) (acts : List Act) :
    (s.proceedWithin op n k acts).bus = ((acts.take (min k (reach s.bus acts))).foldl applyAct s).bus := advance_bus ..

theorem proceedWithin_trace (s : State) (op : Instr) (n k : Nat) (acts : List Act) :
    (s.proceedWithin op n k acts).trace =
      s.trace ++ (acts.take (min k (reach s.bus acts))).filterMap Act.event := advance_trace ..

/-! ## A command cut by `rst_n` -/

@[simp] theorem cutAt_cfg (s : State) (i : Instr) (k : Nat) (m : Memory) :
    (s.cutAt i k m).cfg = s.cfg := by simp [State.cutAt]

@[simp] theorem cutAt_fb (s : State) (i : Instr) (k : Nat) (m : Memory) :
    (s.cutAt i k m).fb = m := rfl

@[simp] theorem cutAt_seq (s : State) (i : Instr) (k : Nat) (m : Memory) :
    (s.cutAt i k m).seq = .busy i k := rfl

@[simp] theorem cutAt_inputs (s : State) (i : Instr) (k : Nat) (m : Memory) :
    (s.cutAt i k m).inputs = s.inputs := by simp [State.cutAt]

@[simp] theorem cutAt_contracts (s : State) (i : Instr) (k : Nat) (m : Memory) :
    (s.cutAt i k m).contracts = (s.accepted i).contracts := by simp [State.cutAt]

theorem cutAt_mode (s : State) (i : Instr) (k : Nat) (m : Memory) :
    (s.cutAt i k m).mode =
      (((program i s.cfg s.fb).take (min k (reach s.bus (program i s.cfg s.fb)))).foldl applyAct
        (s.accepted i)).mode := by
  simp [State.cutAt, proceedWithin_mode]

theorem cutAt_rstLine (s : State) (i : Instr) (k : Nat) (m : Memory) :
    (s.cutAt i k m).rstLine =
      (((program i s.cfg s.fb).take (min k (reach s.bus (program i s.cfg s.fb)))).foldl applyAct
        (s.accepted i)).rstLine := by
  simp [State.cutAt, proceedWithin_rstLine]

theorem cutAt_work (s : State) (i : Instr) (k : Nat) (m : Memory) :
    (s.cutAt i k m).work =
      (((program i s.cfg s.fb).take (min k (reach s.bus (program i s.cfg s.fb)))).foldl applyAct
        (s.accepted i)).work := by
  simp [State.cutAt, proceedWithin_work]

theorem cutAt_bus (s : State) (i : Instr) (k : Nat) (m : Memory) :
    (s.cutAt i k m).bus =
      (((program i s.cfg s.fb).take (min k (reach s.bus (program i s.cfg s.fb)))).foldl applyAct
        (s.accepted i)).bus := by
  simp [State.cutAt, proceedWithin_bus]

theorem cutAt_trace (s : State) (i : Instr) (k : Nat) (m : Memory) :
    (s.cutAt i k m).trace = s.trace ++
      ((program i s.cfg s.fb).take (min k (reach s.bus (program i s.cfg s.fb)))).filterMap Act.event := by
  simp [State.cutAt, proceedWithin_trace]

end Sys2Proof.Machine
end

