-- ==== Sys2Proof/Laws/Memory.lean ====
section
/-! SUPPORT. Reading and writing the framebuffer: read after write, the canonical form, pixels, and what plotting a
list of points does. -/

namespace Sys2Proof.Machine

/-! ## Bytes -/

theorem stored_write (m : Memory) (i j : Nat) (v : Byte) :
    (m.write i v).stored j = if j = i then some v else m.stored j := by
  induction m with
  | nil => simp [Memory.write, Memory.stored]
  | cons c rest ih =>
    obtain ⟨k, u⟩ := c
    simp only [Memory.write]
    split
    · simp only [Memory.stored]
    · split
      · subst_vars
        simp only [Memory.stored]
        split <;> rfl
      · simp only [Memory.stored, ih]
        split
        · rw [if_neg (by omega)]
        · rfl

@[simp] theorem read_write_same (m : Memory) (i : Nat) (v : Byte) : (m.write i v).read i = v := by
  simp [Memory.read, stored_write]

@[simp] theorem read_write_other (m : Memory) {i j : Nat} (v : Byte) (h : j ≠ i) :
    (m.write i v).read j = m.read j := by
  simp [Memory.read, stored_write, h]

theorem read_write (m : Memory) (i j : Nat) (v : Byte) :
    (m.write i v).read j = if j = i then v else m.read j := by
  split
  · subst_vars; simp
  · rename_i h; simp [h]

theorem stored_map_zero (l : List Nat) (i : Nat) (h : i ∈ l) :
    Memory.stored (l.map fun i => (i, (0 : Byte))) i = some 0 := by
  induction l with
  | nil => simp at h
  | cons k rest ih =>
    simp only [List.map_cons, Memory.stored]
    split
    · rfl
    · exact ih (by simp_all)

/-- Every byte of a cleared framebuffer is zero (42_framebuffer R150). -/
@[simp] theorem read_zeroed {i : Nat} (h : i < 1024) : Memory.zeroed.read i = 0 := by
  have h0 : Memory.zeroed.stored i = some 0 := stored_map_zero (List.range 1024) i (by simpa using h)
  rw [Memory.read, h0, Option.getD_some]

/-! ## The canonical form -/

/-- All indexes are above `k`, and rise. -/
theorem rising_cons {k : Nat} {u : Byte} {m : Memory} :
    Memory.rising ((k, u) :: m) = true ↔ (∀ c ∈ m, k < c.1) ∧ Memory.rising m = true := by
  induction m generalizing k u with
  | nil => simp [Memory.rising]
  | cons c rest ih =>
    obtain ⟨j, v⟩ := c
    simp only [Memory.rising, Bool.and_eq_true, decide_eq_true_eq, List.mem_cons, forall_eq_or_imp]
    constructor
    · rintro ⟨hkj, h⟩
      exact ⟨⟨hkj, fun c hc => lt_trans hkj ((ih.1 h).1 c hc)⟩, h⟩
    · rintro ⟨⟨hkj, -⟩, h⟩
      exact ⟨hkj, h⟩

theorem mem_write_index {m : Memory} {i : Nat} {v : Byte} {c : Host.Cell} (h : c ∈ m.write i v) :
    c.1 = i ∨ c ∈ m := by
  induction m with
  | nil => simp [Memory.write] at h; simp [h]
  | cons d rest ih =>
    obtain ⟨j, u⟩ := d
    simp only [Memory.write] at h
    split at h
    · rcases List.mem_cons.1 h with rfl | h
      · exact .inl rfl
      · exact .inr h
    · split at h
      · rcases List.mem_cons.1 h with rfl | h
        · exact .inl rfl
        · exact .inr (List.mem_cons_of_mem _ h)
      · rcases List.mem_cons.1 h with rfl | h
        · exact .inr (List.mem_cons_self ..)
        · exact (ih h).imp_right (List.mem_cons_of_mem _)

theorem write_rising (m : Memory) (i : Nat) (v : Byte) (h : Memory.rising m = true) :
    Memory.rising (m.write i v) = true := by
  induction m with
  | nil => rfl
  | cons c rest ih =>
    obtain ⟨j, u⟩ := c
    have hj := rising_cons.1 h
    simp only [Memory.write]
    split
    · rename_i hij
      refine rising_cons.2 ⟨?_, h⟩
      intro c hc
      rcases List.mem_cons.1 hc with rfl | hc
      · exact hij
      · exact lt_trans hij (hj.1 c hc)
    · split
      · subst_vars
        exact rising_cons.2 hj
      · refine rising_cons.2 ⟨?_, ih hj.2⟩
        intro c hc
        rcases mem_write_index hc with h1 | h1
        · omega
        · exact hj.1 c h1

/-- A write inside the framebuffer keeps the canonical form. -/
theorem write_wf (m : Memory) (i : Nat) (v : Byte) (hi : i < 1024) (h : m.wf = true) :
    (m.write i v).wf = true := by
  simp only [Memory.wf, Bool.and_eq_true, List.all_eq_true, decide_eq_true_eq] at h ⊢
  refine ⟨write_rising m i v h.1, fun c hc => ?_⟩
  rcases mem_write_index hc with h1 | h1
  · omega
  · exact h.2 c h1

theorem rising_zero_cells (l : List Nat) (h : l.Pairwise (· < ·)) :
    Memory.rising (l.map fun i => (i, (0 : Byte))) = true := by
  induction l with
  | nil => rfl
  | cons k rest ih =>
    rw [List.pairwise_cons] at h
    refine rising_cons.2 ⟨?_, ih h.2⟩
    simpa using h.1

/-- A cleared framebuffer has the canonical form. -/
theorem zeroed_wf : Memory.zeroed.wf = true := by
  simp only [Memory.wf, Bool.and_eq_true, List.all_eq_true, decide_eq_true_eq]
  refine ⟨rising_zero_cells _ List.pairwise_lt_range, ?_⟩
  simp [Memory.zeroed]

/-- Equal canonical memories are equal data: the listed bytes decide the list. -/
theorem ext_of_rising {m m' : Memory} (h : Memory.rising m = true) (h' : Memory.rising m' = true)
    (e : ∀ i, m.stored i = m'.stored i) : m = m' := by
  have stored_none : ∀ {m : Memory} {k : Nat}, (∀ c ∈ m, k < c.1) → m.stored k = none := by
    intro m k hk
    induction m with
    | nil => rfl
    | cons c rest ih =>
      obtain ⟨j, v⟩ := c
      have : k < j := hk (j, v) (List.mem_cons_self ..)
      simp only [Memory.stored]
      rw [if_neg (by omega)]
      exact ih fun c hc => hk c (List.mem_cons_of_mem _ hc)
  induction m generalizing m' with
  | nil =>
    cases m' with
    | nil => rfl
    | cons c rest =>
      obtain ⟨j, v⟩ := c
      have := e j
      simp [Memory.stored] at this
  | cons c rest ih =>
    obtain ⟨j, v⟩ := c
    cases m' with
    | nil =>
      have := e j
      simp [Memory.stored] at this
    | cons c' rest' =>
      obtain ⟨j', v'⟩ := c'
      have hj := rising_cons.1 h
      have hj' := rising_cons.1 h'
      have ejj : j = j' := by
        rcases lt_trichotomy j j' with hlt | heq | hgt
        · have := e j
          rw [stored_none (m := (j', v') :: rest') (k := j)] at this
          · simp [Memory.stored] at this
          · intro c hc
            rcases List.mem_cons.1 hc with rfl | hc
            · exact hlt
            · exact lt_trans hlt (hj'.1 c hc)
        · exact heq
        · have := e j'
          rw [stored_none (m := (j, v) :: rest) (k := j')] at this
          · simp [Memory.stored] at this
          · intro c hc
            rcases List.mem_cons.1 hc with rfl | hc
            · exact hgt
            · exact lt_trans hgt (hj.1 c hc)
      subst ejj
      have ev : v = v' := by simpa [Memory.stored] using e j
      subst ev
      congr 1
      refine ih hj.2 hj'.2 fun i => ?_
      by_cases hi : i = j
      · subst hi
        rw [stored_none hj.1, stored_none hj'.1]
      · simpa [Memory.stored, hi] using e i

/-! ## Pixels (20_memory R51, R52) -/

theorem onScreen_iff {x y : Int} :
    onScreen x y = true ↔ (0 ≤ x ∧ x < 128) ∧ 0 ≤ y ∧ y < 64 := by
  simp [onScreen, and_assoc]

theorem pixelIndex_lt {x y : Int} (h : onScreen x y = true) : pixelIndex x y < 1024 := by
  rw [onScreen_iff] at h
  unfold pixelIndex
  omega

theorem pixelIndex_eq_iff {x y x' y' : Int} (h : onScreen x y = true) (h' : onScreen x' y' = true) :
    pixelIndex x y = pixelIndex x' y' ↔ x / 8 = x' / 8 ∧ y = y' := by
  rw [onScreen_iff] at h h'
  unfold pixelIndex
  omega

theorem shiftMask_getLsbD (n b : Nat) (hn : n < 8) (hb : b < 8) :
    ((0x80 : Byte) >>> n).getLsbD b = decide (b = 7 - n) := by
  have : ∀ n : Fin 8, ∀ b : Fin 8, ((0x80 : Byte) >>> n.val).getLsbD b.val = decide (b.val = 7 - n.val) := by
    decide
  exact this ⟨n, hn⟩ ⟨b, hb⟩

/-- A pixel is lit iff its bit is set. -/
theorem and_pixelMask_ne_zero (v : Byte) (x : Int) :
    (v &&& pixelMask x != 0) = v.getLsbD (7 - (x % 8).toNat) := by
  have hx : (x % 8).toNat < 8 := by omega
  have : ∀ n : Fin 8, ∀ v : Byte, (v &&& ((0x80 : Byte) >>> n.val) != 0) = v.getLsbD (7 - n.val) := by
    decide +revert
  exact this ⟨_, hx⟩ v

theorem fbGet_eq (m : Memory) (x y : Int) :
    fbGet m x y = (m.read (pixelIndex x y)).getLsbD (7 - (x % 8).toNat) :=
  and_pixelMask_ne_zero _ _

/-- Setting a pixel lights it and leaves every other pixel as it was (42_framebuffer R145). -/
theorem fbGet_setPixel (m : Memory) {x y px py : Int} (h : onScreen x y = true)
    (hp : onScreen px py = true) :
    fbGet (setPixel m x y) px py = (fbGet m px py || decide (px = x ∧ py = y)) := by
  simp only [fbGet_eq, setPixel, read_write, pixelIndex_eq_iff hp h]
  split
  · rename_i hxy
    have hi := (pixelIndex_eq_iff hp h).2 hxy
    have hpx : (px % 8).toNat < 8 := by omega
    rw [hi, BitVec.getLsbD_or, pixelMask, shiftMask_getLsbD _ _ (by omega) (by omega)]
    congr 1
    rw [decide_eq_decide]
    omega
  · rename_i hxy
    have : decide (px = x ∧ py = y) = false := by
      rw [decide_eq_false_iff_not]
      rintro ⟨rfl, rfl⟩
      exact hxy ⟨rfl, rfl⟩
    rw [this, Bool.or_false]

theorem fbGet_plotChecked (m : Memory) {x y px py : Int} (hp : onScreen px py = true) :
    fbGet (plotChecked m x y) px py = (fbGet m px py || decide (px = x ∧ py = y)) := by
  unfold plotChecked
  split
  · exact fbGet_setPixel m ‹_› hp
  · have : decide (px = x ∧ py = y) = false := by
      rw [decide_eq_false_iff_not]
      rintro ⟨rfl, rfl⟩
      exact ‹¬_› hp
    rw [this, Bool.or_false]

/-- The checked setter over a list lights exactly the list's points on the screen. -/
theorem fbGet_plotVisible (points : List (Int × Int)) (m : Memory) {px py : Int}
    (hp : onScreen px py = true) :
    fbGet (plotVisible points m) px py = (fbGet m px py || decide ((px, py) ∈ points)) := by
  unfold plotVisible
  induction points generalizing m with
  | nil => simp
  | cons p rest ih =>
    rw [List.foldl_cons, ih, fbGet_plotChecked _ hp, Bool.or_assoc]
    congr 1
    rw [Bool.eq_iff_iff]
    simp [Prod.ext_iff]

/-- The unchecked setter over a list: either every point is on the screen and exactly they are lit, or the first
one off the screen is the error. -/
theorem plotUnchecked_ok {points : List (Int × Int)} {m m' : Memory}
    (h : plotUnchecked points m = .ok m') :
    (∀ p ∈ points, onScreen p.1 p.2 = true) ∧ m' = plotVisible points m := by
  induction points generalizing m with
  | nil =>
    cases h
    exact ⟨by simp, rfl⟩
  | cons p rest ih =>
    rw [plotUnchecked] at h
    split at h
    · rename_i hp
      obtain ⟨h1, h2⟩ := ih h
      refine ⟨by simpa [hp] using h1, ?_⟩
      rw [h2, plotVisible, plotVisible, List.foldl_cons, plotChecked, if_pos hp]
    · cases h

theorem plotUnchecked_of_onScreen {points : List (Int × Int)}
    (h : ∀ p ∈ points, onScreen p.1 p.2 = true) (m : Memory) :
    plotUnchecked points m = .ok (plotVisible points m) := by
  induction points generalizing m with
  | nil => rfl
  | cons p rest ih =>
    have hp := h p (List.mem_cons_self ..)
    have hr := ih (fun q hq => h q (List.mem_cons_of_mem _ hq)) (setPixel m p.1 p.2)
    rw [plotUnchecked, if_pos hp, hr, plotVisible, plotVisible, List.foldl_cons, plotChecked, if_pos hp]

theorem plotUnchecked_error_iff {points : List (Int × Int)} {m : Memory} {p : Int × Int} :
    plotUnchecked points m = .error p ↔
      ∃ pre post, points = pre ++ p :: post ∧ (∀ q ∈ pre, onScreen q.1 q.2 = true) ∧
        onScreen p.1 p.2 = false := by
  induction points generalizing m with
  | nil => simp [plotUnchecked]
  | cons q rest ih =>
    simp only [plotUnchecked]
    split
    · rename_i hq
      rw [ih]
      constructor
      · rintro ⟨pre, post, rfl, h1, h2⟩
        exact ⟨q :: pre, post, rfl, by simpa [hq] using h1, h2⟩
      · rintro ⟨pre, post, h0, h1, h2⟩
        cases pre with
        | nil =>
          simp only [List.nil_append, List.cons.injEq] at h0
          rw [h0.1, h2] at hq
          cases hq
        | cons r pre =>
          simp only [List.cons_append, List.cons.injEq] at h0
          exact ⟨pre, post, h0.2, fun q hq => h1 q (List.mem_cons_of_mem _ hq), h2⟩
    · rename_i hq
      constructor
      · intro h
        cases h
        exact ⟨[], rest, rfl, by simp, by simpa using hq⟩
      · rintro ⟨pre, post, h0, h1, h2⟩
        cases pre with
        | nil =>
          simp only [List.nil_append, List.cons.injEq] at h0
          rw [h0.1]
        | cons r pre =>
          simp only [List.cons_append, List.cons.injEq] at h0
          exact absurd (h0.1 ▸ h1 r (List.mem_cons_self ..)) hq

/-! ## Plotting keeps the canonical form and clears no bit -/

theorem plotChecked_wf (m : Memory) (x y : Int) (h : m.wf = true) : (plotChecked m x y).wf = true := by
  unfold plotChecked
  split
  · exact write_wf _ _ _ (pixelIndex_lt ‹_›) h
  · exact h

theorem plotVisible_wf (points : List (Int × Int)) (m : Memory) (h : m.wf = true) :
    (plotVisible points m).wf = true := by
  unfold plotVisible
  induction points generalizing m with
  | nil => exact h
  | cons p rest ih => exact ih _ (plotChecked_wf m _ _ h)

theorem plotChecked_keeps_bits (m : Memory) (x y : Int) (i : Nat) :
    m.read i &&& (plotChecked m x y).read i = m.read i := by
  unfold plotChecked setPixel
  split
  · rw [read_write]
    split
    · subst_vars
      ext b hb
      simp
      tauto
    · simp
  · simp

theorem plotVisible_keeps_bits (points : List (Int × Int)) (m : Memory) (i : Nat) :
    m.read i &&& (plotVisible points m).read i = m.read i := by
  unfold plotVisible
  induction points generalizing m with
  | nil => simp
  | cons p rest ih =>
    rw [List.foldl_cons]
    have h1 := plotChecked_keeps_bits m p.1 p.2 i
    have h2 := ih (plotChecked m p.1 p.2)
    rw [← h1, BitVec.and_assoc, h2]

end Sys2Proof.Machine
end

