-- ==== Sys2Proof/Laws/Sequencer.lean ====
section
/-! SUPPORT. What running a command's steps can do: it completes when the bus allows its transfers
(`proceed_complete`), or it stops before one transfer with the bus used up (`proceed_stalls`); and frames. -/

namespace Sys2Proof.Machine

/-! ## Counting transfers -/

@[simp] theorem transfers_nil : transfers [] = 0 := rfl

@[simp] theorem transfers_append (a b : List Act) : transfers (a ++ b) = transfers a + transfers b := by
  simp [transfers]

theorem transfers_cons (a : Act) (rest : List Act) :
    transfers (a :: rest) = transfers rest + if a.transfer.isSome then 1 else 0 := by
  unfold transfers
  cases h : a.transfer <;> simp [h]

@[simp] theorem transfers_frameActs (sync v : Byte) : transfers (frameActs sync v) = 3 := rfl

theorem busAllows_le {s : State} {n m : Nat} (h : s.busAllows n = true) (hm : m ≤ n) :
    s.busAllows m = true := by
  unfold State.busAllows at *
  split at h <;> simp_all
  omega

/-! ## How far the bus lets a command go -/

theorem reach_none (acts : List Act) : reach none acts = acts.length := by
  induction acts with
  | nil => rfl
  | cons a rest ih => cases h : a.transfer <;> simp [reach, h, ih]

theorem reach_some_of_le {c : Nat} {acts : List Act} (h : transfers acts ≤ c) :
    reach (some c) acts = acts.length := by
  induction acts generalizing c with
  | nil => rfl
  | cons a rest ih =>
    rw [transfers_cons] at h
    cases ha : a.transfer with
    | none => simp [reach, ha, ih (c := c) (by simpa [ha] using h)]
    | some v =>
      simp only [ha, Option.isSome_some, if_true] at h
      obtain ⟨d, rfl⟩ : ∃ d, c = d + 1 := ⟨c - 1, by omega⟩
      simp [reach, ha, ih (c := d) (by omega)]

/-- With too few completions left, the steps split at the transfer that waits. -/
theorem reach_some_split {c : Nat} {acts : List Act} (h : c < transfers acts) :
    ∃ pre a post, acts = pre ++ a :: post ∧ a.transfer.isSome = true ∧ transfers pre = c ∧
      reach (some c) acts = pre.length := by
  induction acts generalizing c with
  | nil => simp at h
  | cons a rest ih =>
    rw [transfers_cons] at h
    cases ha : a.transfer with
    | none =>
      obtain ⟨pre, b, post, rfl, hb, hp, hr⟩ := ih (c := c) (by simpa [ha] using h)
      refine ⟨a :: pre, b, post, rfl, hb, ?_, ?_⟩
      · simp [transfers_cons, ha, hp]
      · simp [reach, ha, hr]
    | some v =>
      cases c with
      | zero => exact ⟨[], a, rest, rfl, by simp [ha], rfl, by simp [reach, ha]⟩
      | succ d =>
        simp only [ha, Option.isSome_some, if_true] at h
        obtain ⟨pre, b, post, rfl, hb, hp, hr⟩ := ih (c := d) (by omega)
        refine ⟨a :: pre, b, post, rfl, hb, ?_, ?_⟩
        · simp [transfers_cons, ha, hp]
        · simp [reach, ha, hr]

/-- The bus after some completed steps. -/
theorem foldl_applyAct_bus (acts : List Act) (s : State) :
    (acts.foldl applyAct s).bus = s.bus.map (· - transfers acts) := by
  induction acts generalizing s with
  | nil => cases h : s.bus <;> simp [h]
  | cons a rest ih =>
    rw [List.foldl_cons, ih, transfers_cons]
    cases a <;> simp [applyAct, Act.transfer, Option.map_map, Function.comp_def]
    cases s.bus <;> simp
    omega

/-! ## Completion and stalling -/

/-- A command whose transfers the bus allows runs to its end. -/
theorem proceed_complete {s : State} {acts : List Act} (h : s.busAllows (transfers acts) = true)
    (op : Instr) (n : Nat) :
    s.proceed op n acts = { runActs acts s with seq := .idle, inFlight := none } := by
  have hr : reach s.bus acts = acts.length := by
    unfold State.busAllows at h
    split at h
    · rename_i hb; rw [hb]; exact reach_none acts
    · rename_i c hb; rw [hb]; exact reach_some_of_le (by simpa using h)
  simp [State.proceed, State.advance, hr]

/-- A command whose transfers the bus does not allow stops before one of them, with no completion left. -/
theorem proceed_stalls {s : State} {acts : List Act} (h : s.busAllows (transfers acts) = false)
    (op : Instr) (n : Nat) :
    ∃ pre a post, acts = pre ++ a :: post ∧ a.transfer.isSome = true ∧
      s.bus = some (transfers pre) ∧
      s.proceed op n acts =
        { runActs pre s with seq := .busy op (n + pre.length), inFlight := a.transfer } := by
  unfold State.busAllows at h
  split at h
  · cases h
  · rename_i c hb
    obtain ⟨pre, a, post, he, ha, hp, hr⟩ := reach_some_split (c := c) (acts := acts) (by simpa using h)
    refine ⟨pre, a, post, he, ha, by rw [hb, hp], ?_⟩
    have hd : acts.drop pre.length = a :: post := by rw [he]; simp
    have ht : acts.take pre.length = pre := by rw [he]; simp
    simp [State.proceed, State.advance, hb, hr, hd, ht]

/-- Running two lists of steps one after the other is running both. -/
theorem runActs_append (a b : List Act) (s : State) : runActs (a ++ b) s = runActs b (runActs a s) := by
  have key : ∀ (acts : List Act) (s : State) (tr : List Event),
      acts.foldl applyAct { s with trace := tr } = { acts.foldl applyAct s with trace := tr } := by
    intro acts
    induction acts with
    | nil => intro s tr; rfl
    | cons x rest ih =>
      intro s tr
      have hx : applyAct { s with trace := tr } x = { applyAct s x with trace := tr } := by
        cases x <;> rfl
      rw [List.foldl_cons, hx, ih, List.foldl_cons]
  have e := key b (a.foldl applyAct s) (s.trace ++ a.filterMap Act.event)
  simp only [runActs, e, List.foldl_append, List.filterMap_append, List.append_assoc]

/-! ## Steps, register by register -/

/-- What a step does to `MODE`. -/
def Act.onMode (m : Mode) : Act → Mode
  | .mode m' => m'
  | _ => m

/-- What a step does to `RSTLINE`. -/
def Act.onLine (b : Bool) : Act → Bool
  | .rst b' => b'
  | _ => b

/-- What a step does to the working registers. -/
def Act.onWork (w : Work) : Act → Work
  | .load sync val => { w with fsync := sync, fval := val, fidx := 0 }
  | .byte k _ => { w with fidx := k + 1 }
  | .row n => { w with row := n }
  | .col n => { w with col := n }
  | .addr a => { w with addr := a }
  | _ => w

theorem foldl_applyAct_mode (acts : List Act) (s : State) :
    (acts.foldl applyAct s).mode = acts.foldl Act.onMode s.mode := by
  induction acts generalizing s with
  | nil => rfl
  | cons a rest ih => rw [List.foldl_cons, ih]; cases a <;> rfl

theorem foldl_applyAct_rstLine (acts : List Act) (s : State) :
    (acts.foldl applyAct s).rstLine = acts.foldl Act.onLine s.rstLine := by
  induction acts generalizing s with
  | nil => rfl
  | cons a rest ih => rw [List.foldl_cons, ih]; cases a <;> rfl

theorem foldl_applyAct_work (acts : List Act) (s : State) :
    (acts.foldl applyAct s).work = acts.foldl Act.onWork s.work := by
  induction acts generalizing s with
  | nil => rfl
  | cons a rest ih => rw [List.foldl_cons, ih]; cases a <;> rfl

/-- Everything a list of completed steps does. -/
theorem runActs_eq (acts : List Act) (s : State) :
    runActs acts s =
      { s with
        mode := acts.foldl Act.onMode s.mode
        rstLine := acts.foldl Act.onLine s.rstLine
        work := acts.foldl Act.onWork s.work
        trace := s.trace ++ acts.filterMap Act.event
        bus := s.bus.map (· - transfers acts) } := by
  ext1 <;>
    simp [foldl_applyAct_mode, foldl_applyAct_rstLine, foldl_applyAct_work, foldl_applyAct_bus]

/-! ## Frames -/

/-- What a completed `Frame` leaves (40_bus R110). -/
theorem runActs_frameActs (sync v : Byte) (s : State) :
    runActs (frameActs sync v) s =
      { s with
        trace := s.trace ++
          [.byte sync, .byte (v &&& 0xF0), .byte ((v <<< 4) &&& 0xF0), .hold .settle]
        work := { s.work with fsync := sync, fval := v, fidx := 0 }
        bus := s.bus.map (· - 3) } := by
  rw [runActs_eq]
  rfl

/-- The events of a frame read back as that frame (30_encoding R84). -/
theorem unframe_frame (v : Byte) :
    unframe syncInstr (highByte v) (lowNibbleByte v) = some (.instruction, v) ∧
      unframe syncData (highByte v) (lowNibbleByte v) = some (.data, v) := by
  have : ∀ v : Byte, unframe syncInstr (highByte v) (lowNibbleByte v) = some (.instruction, v) ∧
      unframe syncData (highByte v) (lowNibbleByte v) = some (.data, v) := by decide
  exact this v

/-- Items of a joined trace. -/
theorem items_append {a b : List Event} {is js : List Item} (ha : items a = some is)
    (hb : items b = some js) : items (a ++ b) = some (is ++ js) := by
  induction a using items.induct generalizing is with
  | case1 => simp [items] at ha; subst ha; simpa using hb
  | case2 l rest ih | case4 rest ih | case5 rest ih | case6 rest ih =>
    cases hr : items rest with
    | none => simp [items, hr, consItem] at ha
    | some ks =>
      simp only [items, hr, consItem, Option.some.injEq] at ha
      subst ha
      simp [items, consItem, ih hr]
  | case3 rest => simp [items] at ha
  | case7 b0 b1 b2 rest hf => simp [items, hf] at ha
  | case8 b0 b1 b2 rest f hf ih =>
    cases hr : items rest with
    | none => simp [items, hf, hr, consItem] at ha
    | some ks =>
      simp only [items, hf, hr, consItem, Option.some.injEq] at ha
      subst ha
      simp [items, hf, consItem, ih hr]
  | case9 b rest hne => 
    rw [items] at ha
    · cases ha
    · exact hne

end Sys2Proof.Machine
end

