-- ==== Sys2Proof/Laws/Exec.lean ====
section
/-! SUPPORT. Everything exec and step can do, said once: an instruction that uses the bus runs its program
(`exec_bus`), any other draws (`exec_draw`), and a step is one of five things (`step_next`). -/

namespace Sys2Proof.Machine

/-- The instructions that use the device pins. -/
def usesBus : Instr → Bool
  | .fbClear => false
  | .fbSet _ _ => false
  | .fbSetChecked _ _ => false
  | .line _ _ _ _ => false
  | .circle _ _ _ => false
  | _ => true

/-- The record of contracts a bus instruction leaves at acceptance. -/
def noted (i : Instr) (s : State) : State :=
  match i with
  | .clearText => s.noteMode .clearText
  | .enterGraphics => s.noteMode .enterGraphics
  | .setCursor line col => (s.noteMode (.setCursor line col)).noteColumn col
  | .refresh => s.noteMode .refresh
  | _ => s

/-- Taking note changes the record of contracts only. -/
theorem noted_eq (i : Instr) (s : State) : noted i s = { s with contracts := (noted i s).contracts } := by
  cases i <;> rfl

/-- The record of one set of contracts from another. -/
theorem noted_contracts_congr (i : Instr) {s s' : State} (h : s.contracts = s'.contracts)
    (hm : s.mode = s'.mode) : (noted i s).contracts = (noted i s').contracts := by
  cases i <;> simp [noted, h, hm]

/-- A flag set before is set after. -/
theorem noted_keeps (i : Instr) (s : State) :
    (s.contracts.mode = true → (noted i s).contracts.mode = true) ∧
      (s.contracts.column = true → (noted i s).contracts.column = true) ∧
      (noted i s).contracts.endpoint = s.contracts.endpoint ∧
      (noted i s).contracts.radius = s.contracts.radius ∧
      (noted i s).contracts.abandoned = s.contracts.abandoned := by
  cases i <;> simp +contextual [noted]

@[simp] theorem noted_cfg (i : Instr) (s : State) : (noted i s).cfg = s.cfg := by rw [noted_eq]
@[simp] theorem noted_fb (i : Instr) (s : State) : (noted i s).fb = s.fb := by rw [noted_eq]
@[simp] theorem noted_mode (i : Instr) (s : State) : (noted i s).mode = s.mode := by rw [noted_eq]
@[simp] theorem noted_rstLine (i : Instr) (s : State) : (noted i s).rstLine = s.rstLine := by rw [noted_eq]
@[simp] theorem noted_seq (i : Instr) (s : State) : (noted i s).seq = s.seq := by rw [noted_eq]
@[simp] theorem noted_work (i : Instr) (s : State) : (noted i s).work = s.work := by rw [noted_eq]
@[simp] theorem noted_inFlight (i : Instr) (s : State) : (noted i s).inFlight = s.inFlight := by rw [noted_eq]
@[simp] theorem noted_trace (i : Instr) (s : State) : (noted i s).trace = s.trace := by rw [noted_eq]
@[simp] theorem noted_inputs (i : Instr) (s : State) : (noted i s).inputs = s.inputs := by rw [noted_eq]
@[simp] theorem noted_bus (i : Instr) (s : State) : (noted i s).bus = s.bus := by rw [noted_eq]

/-- An instruction that uses the bus runs its program as far as the bus lets it. -/
theorem exec_bus {i : Instr} (h : usesBus i = true) (s : State) :
    exec i s = .next ((noted i s).proceed i 0 (program i s.cfg s.fb)) := by
  cases i <;> first | exact Bool.noConfusion h | rfl

/-- An instruction that does not use the bus has no program. -/
theorem program_of_not_usesBus {i : Instr} (h : usesBus i = false) (c : Config) (m : Memory) :
    program i c m = [] := by
  cases i <;> first | exact Bool.noConfusion h | rfl

/-- Any other instruction that completes clears the framebuffer, or plots a list of points through the checked
setter, and writes no more than its registers and the record of contracts. -/
theorem exec_draw {i : Instr} {s t : State} (hb : usesBus i = false) (h : exec i s = .next t) :
    (i = .fbClear ∧ t = { s with fb := Memory.zeroed }) ∨
      (∃ x y, (i = .fbSet x y ∨ i = .fbSetChecked x y) ∧
        t = { s with fb := plotVisible [(x, y)] s.fb }) ∨
      (∃ x0 y0 x1 y1, i = .line x0 y0 x1 y1 ∧
        t = { s.noteEndpoints x0 y0 x1 y1 with
          fb := plotVisible (lineDrawn x0 y0 x1 y1 s.work) s.fb
          work := lineAfter (lineCount (lineStart x0 y0 x1 y1 s.work)) (lineStart x0 y0 x1 y1 s.work) }) ∨
      ∃ cx cy r, i = .circle cx cy r ∧
        t = { s.noteRadius r with
          fb := plotVisible (circleDrawn s.cfg.circleStep cx cy r s.work) s.fb
          work := circleAfter s.cfg.circleStep r.toNat (circleStart cx cy r s.work) } := by
  cases i
  case fbClear =>
    left
    refine ⟨rfl, ?_⟩
    simp only [exec, execFbClear, Host.Outcome.next.injEq] at h
    exact h.symm
  case fbSet x y =>
    right; left
    refine ⟨x, y, .inl rfl, ?_⟩
    simp only [exec, execFbSet] at h
    split at h
    · cases h; simp [plotVisible, plotChecked, *]
    · cases h
  case fbSetChecked x y =>
    right; left
    refine ⟨x, y, .inr rfl, ?_⟩
    cases h; rfl
  case line x0 y0 x1 y1 =>
    right; right; left
    refine ⟨x0, y0, x1, y1, rfl, ?_⟩
    simp only [exec, execLine] at h
    split at h
    · rename_i m hm
      rw [← (plotUnchecked_ok hm).2]
      cases h; rfl
    · cases h
  case circle cx cy r =>
    right; right; right
    exact ⟨cx, cy, r, rfl, by cases h; rfl⟩
  all_goals cases hb

/-- What the drawing instructions have in common. -/
theorem exec_draw_frame {i : Instr} {s t : State} (hb : usesBus i = false) (h : exec i s = .next t) :
    ∃ m w c, t = { s with fb := m, work := w, contracts := c } ∧ c.mode = s.contracts.mode ∧
      c.column = s.contracts.column ∧ c.abandoned = s.contracts.abandoned ∧
      (s.contracts.endpoint = true → c.endpoint = true) ∧ (s.contracts.radius = true → c.radius = true) ∧
      (m = Memory.zeroed ∧ i = .fbClear ∨ ∃ points, m = plotVisible points s.fb) := by
  rcases exec_draw hb h with ⟨hi, rfl⟩ | ⟨x, y, -, rfl⟩ | ⟨x0, y0, x1, y1, -, rfl⟩ | ⟨cx, cy, r, -, rfl⟩
  · exact ⟨_, s.work, s.contracts, rfl, rfl, rfl, rfl, id, id, .inl ⟨rfl, hi⟩⟩
  · exact ⟨_, s.work, s.contracts, rfl, rfl, rfl, rfl, id, id, .inr ⟨_, rfl⟩⟩
  · exact ⟨_, _, (s.noteEndpoints x0 y0 x1 y1).contracts, rfl, rfl, rfl, rfl,
      fun h => by simp [h], fun h => by simp [h], .inr ⟨_, rfl⟩⟩
  · exact ⟨_, _, (s.noteRadius r).contracts, rfl, rfl, rfl, rfl,
      fun h => by simp [h], fun h => by simp [h], .inr ⟨_, rfl⟩⟩

/-- Only completion, a wait or a stop: exec never refuses. -/
theorem exec_not_refused (i : Instr) (s : State) (r : Refusal) : exec i s ≠ .refused r := by
  intro h
  cases i <;> simp only [exec] at h
  case fbSet x y =>
    simp only [execFbSet] at h
    split at h <;> cases h
  case line x0 y0 x1 y1 =>
    simp only [execLine] at h
    split at h <;> cases h
  all_goals cases h

/-! ## Events of the environment -/

/-- Whatever is served leaves the words in their places. -/
theorem takeEvent_words {inputs : List Input} {ev : Input} {rest : List Input}
    (h : takeEvent inputs = some (ev, rest)) :
    wordsOf rest = wordsOf inputs ∧ ev ∈ inputs ∧ ev.carried = none := by
  induction inputs generalizing rest with
  | nil => cases h
  | cons i is ih =>
    unfold takeEvent at h
    split at h
    · split at h
      · cases h
      · rename_i hc _ ev' rest' h'
        cases h
        obtain ⟨e, he⟩ := Option.isSome_iff_exists.mp hc
        obtain ⟨h1, h2, h3⟩ := ih h'
        exact ⟨by simpa [wordsOf, he] using h1, List.mem_cons_of_mem _ h2, h3⟩
    · rename_i hc
      cases h
      have hn : ev.carried = none := by simpa using hc
      exact ⟨by simp [wordsOf, hn], List.mem_cons_self .., hn⟩

theorem takeEvent_none_iff {inputs : List Input} :
    takeEvent inputs = none ↔ ∀ i ∈ inputs, i.carried.isSome = true := by
  induction inputs with
  | nil => simp [takeEvent]
  | cons i is ih =>
    unfold takeEvent
    rw [List.forall_mem_cons, ← ih]
    split
    · split <;> simp_all
    · simp_all

@[simp] theorem present_carried (e : Encoded) : (present e).carried = some e := by cases e <;> rfl

/-! ## What a step can do -/

/-- The steps to a next state: nothing happens, a completion or a pin is noted, a waiting command polls or goes on,
or the command of a presented word is executed, to its end or to the pin. -/
inductive Moves (s : State) : State → Prop
  | still (hs : s.seq = .idle) (hi : s.inputs = []) : Moves s s
  | grant {n : Nat} {rest : List Input} (hs : s.seq = .idle) (hi : s.inputs = .busReady n :: rest) :
      Moves s ({ s with inputs := rest }.grant n)
  | pin {rest : List Input} (hm : .resetPin ∈ s.inputs)
      (hw : s.seq ≠ .idle → wordsOf rest = wordsOf s.inputs) : Moves s { s with inputs := rest }.blockReset
  | idleCut {n k : Nat} {rest : List Input} (hs : s.seq = .idle) (hi : s.inputs = .readyCut n k :: rest) :
      Moves s ({ s with inputs := rest }.grant n).blockReset
  | poll {op : Instr} {n : Nat} (hs : s.seq = .busy op n) (hi : takeEvent s.inputs = none) :
      Moves s (s.resume op n)
  | ready {op : Instr} {n c : Nat} {rest : List Input} (hs : s.seq = .busy op n)
      (hi : takeEvent s.inputs = some (.busReady c, rest)) :
      Moves s (({ s with inputs := rest }.grant c).resume op n)
  | readyCut {op : Instr} {n c k : Nat} {rest : List Input} (hs : s.seq = .busy op n)
      (hi : takeEvent s.inputs = some (.readyCut c k, rest)) :
      Moves s (({ s with inputs := rest }.grant c).resumeWithin op n k).blockReset
  | word {e : Encoded} {i : Instr} {rest : List Input} {t : State} (hs : s.seq = .idle)
      (hi : s.inputs = present e :: rest) (hd : decode e = .ok i)
      (he : exec i { s with inputs := rest } = .next t) : Moves s t
  | wordCut {w : CmdWord} {k : Nat} {i : Instr} {rest : List Input} {t : State} (hs : s.seq = .idle)
      (hi : s.inputs = .wordCut w k :: rest) (hd : decode (.command w) = .ok i)
      (he : execCut i k { s with inputs := rest } = .next t) : Moves s t

theorem run_next {d : Except DecodeError Instr} {f : Instr → Host.Outcome State Fault Refusal} {t : State}
    (h : run d f = .next t) : ∃ i, d = .ok i ∧ f i = .next t := by
  cases d with
  | ok i => exact ⟨i, rfl, h⟩
  | error r => cases h

theorem step_next {s t : State} (h : step s = .next t) : Moves s t := by
  unfold step at h
  split at h
  · rename_i op n hs
    cases h
    unfold State.busyStep
    split
    · exact .poll hs ‹_›
    · rename_i ev rest he
      obtain ⟨hw, hm, hne⟩ := takeEvent_words he
      cases ev with
      | word w => cases hne
      | wordCut w k => cases hne
      | inner u => cases hne
      | busReady c => exact .ready hs he
      | readyCut c k => exact .readyCut hs he
      | resetPin => exact .pin hm fun _ => hw
  · rename_i hs
    split at h
    · cases h; exact .still hs ‹_›
    · obtain ⟨i, hd, he⟩ := run_next h
      exact .word (e := .command _) hs ‹_› hd he
    · obtain ⟨i, hd, he⟩ := run_next h
      exact .wordCut hs ‹_› hd he
    · obtain ⟨i, hd, he⟩ := run_next h
      exact .word (e := .inner _) hs ‹_› hd he
    · cases h; exact .grant hs ‹_›
    · cases h; exact .idleCut hs ‹_›
    · rename_i rest hi
      cases h; exact .pin (by simp [hi]) fun h => absurd hs h

/-- An idle block runs the instruction of the word that comes in. -/
theorem step_present {s : State} {e : Encoded} {rest : List Input} (hs : s.seq = .idle)
    (hi : s.inputs = present e :: rest) :
    step s = run (decode e) fun i => exec i { s with inputs := rest } := by
  cases e <;> simp only [present] at hi <;> simp only [step, hs, hi]

theorem step_wordCut {s : State} {w : CmdWord} {k : Nat} {rest : List Input} (hs : s.seq = .idle)
    (hi : s.inputs = .wordCut w k :: rest) :
    step s = run (decode (.command w)) fun i => execCut i k { s with inputs := rest } := by
  simp only [step, hs, hi]

end Sys2Proof.Machine
end

