-- ==== Sys2Proof/Laws/PerInstr.lean ====
section
/-! SUPPORT. Statements for all instructions, made per instruction: every instruction's word carries the fixed bits
of its row of spec/opcode_table.json (`EncodesItsRow`). -/

namespace Sys2Proof.Laws.EncodesItsRow

open Sys2Proof

/-- A word has the format, the mask and the match of its row. -/
def fits (e : Encoded) (bits mask value : Nat) : Prop :=
  match e with
  | .command w => bits = 72 ∧ w &&& BitVec.ofNat 72 mask = BitVec.ofNat 72 value
  | .inner (.frame w) => bits = 24 ∧ w &&& BitVec.ofNat 24 mask = BitVec.ofNat 24 value
  | .inner (.lcd _ b) => bits = 8 ∧ b &&& BitVec.ofNat 8 mask = BitVec.ofNat 8 value

/-- The fixed bits of an instruction's row: width, mask, match (opcode_table.json, 30_encoding R100). -/
def row : Instr → Nat × Nat × Nat
  | .sendInstr _ => (72, 0xFF0000000000000000, 0x100000000000000000)
  | .sendData _ => (72, 0xFF0000000000000000, 0x110000000000000000)
  | .reset => (72, 0xFF0000000000000000, 0x200000000000000000)
  | .clearText => (72, 0xFF0000000000000000, 0x210000000000000000)
  | .enterGraphics => (72, 0xFF0000000000000000, 0x220000000000000000)
  | .setCursor _ _ => (72, 0xFF0000000000000000, 0x230000000000000000)
  | .fbClear => (72, 0xFF0000000000000000, 0x300000000000000000)
  | .fbSet _ _ => (72, 0xFF0000000000000000, 0x310000000000000000)
  | .fbSetChecked _ _ => (72, 0xFF0000000000000000, 0x320000000000000000)
  | .line _ _ _ _ => (72, 0xFF0000000000000000, 0x400000000000000000)
  | .circle _ _ _ => (72, 0xFF0000000000000000, 0x410000000000000000)
  | .refresh => (72, 0xFF0000000000000000, 0x500000000000000000)
  | .frameInstr _ _ => (24, 0xFF0F0F, 0xF80000)
  | .frameData _ _ => (24, 0xFF0F0F, 0xFA0000)
  | .lcdFuncBasic => (8, 0xFF, 0x30)
  | .lcdDisplayOn => (8, 0xFF, 0x0C)
  | .lcdClear => (8, 0xFF, 0x01)
  | .lcdEntryMode => (8, 0xFF, 0x06)
  | .lcdFuncExt => (8, 0xFF, 0x34)
  | .lcdFuncExtGfx => (8, 0xFF, 0x36)
  | .lcdCursorAddr _ _ _ => (8, 0xE0, 0x80)
  | .lcdRowSelect _ => (8, 0xE0, 0x80)
  | .lcdBankSelect _ => (8, 0xF7, 0x80)

/-- The word of an instruction carries its row's fixed bits. -/
def Statement (i : Instr) : Prop := fits (encode i) (row i).1 (row i).2.1 (row i).2.2

theorem command_fits (op : Byte) (a b c d : Field) :
    fits (.command (commandWord op a b c d)) 72 0xFF0000000000000000 (op.toNat * 2 ^ 64) := by
  refine ⟨rfl, ?_⟩
  have e : BitVec.ofNat 72 (op.toNat * 2 ^ 64) = op ++ (0 : BitVec 64) := by
    revert op; decide
  rw [e]
  apply BitVec.eq_of_getLsbD_eq
  intro i hi
  have m : (BitVec.ofNat 72 0xFF0000000000000000).getLsbD i = decide (64 ≤ i) := by
    revert i; decide
  rw [BitVec.getLsbD_and, m]
  simp only [commandWord, BitVec.getLsbD_append]
  by_cases h : 64 ≤ i
  · have h1 : ¬ i < 16 := by omega
    have h2 : ¬ i - 16 < 16 := by omega
    have h3 : ¬ i - 16 - 16 < 16 := by omega
    have h4 : ¬ i - 16 - 16 - 16 < 16 := by omega
    have h5 : i - 16 - 16 - 16 - 16 = i - 64 := by omega
    have h6 : ¬ i < 64 := by omega
    simp [h, h1, h2, h3, h4, h5, h6]
  · have h6 : i < 64 := by omega
    simp [h, h6]

theorem sendInstr (byte : Byte) : Statement (.sendInstr byte) := command_fits 0x10 _ _ _ _
theorem sendData (byte : Byte) : Statement (.sendData byte) := command_fits 0x11 _ _ _ _
theorem reset : Statement .reset := command_fits 0x20 _ _ _ _
theorem clearText : Statement .clearText := command_fits 0x21 _ _ _ _
theorem enterGraphics : Statement .enterGraphics := command_fits 0x22 _ _ _ _
theorem setCursor (line : Field) (col : Int) : Statement (.setCursor line col) := command_fits 0x23 _ _ _ _
theorem fbClear : Statement .fbClear := command_fits 0x30 _ _ _ _
theorem fbSet (x y : Int) : Statement (.fbSet x y) := command_fits 0x31 _ _ _ _
theorem fbSetChecked (x y : Int) : Statement (.fbSetChecked x y) := command_fits 0x32 _ _ _ _
theorem line (x0 y0 x1 y1 : Int) : Statement (.line x0 y0 x1 y1) := command_fits 0x40 _ _ _ _
theorem circle (cx cy radius : Int) : Statement (.circle cx cy radius) := command_fits 0x41 _ _ _ _
theorem refresh : Statement .refresh := command_fits 0x50 _ _ _ _
theorem frameInstr (h l : Nibble) : Statement (.frameInstr h l) := by
  refine ⟨rfl, ?_⟩; revert h l; decide
theorem frameData (h l : Nibble) : Statement (.frameData h l) := by
  refine ⟨rfl, ?_⟩; revert h l; decide
theorem lcdFuncBasic : Statement .lcdFuncBasic := ⟨rfl, rfl⟩
theorem lcdDisplayOn : Statement .lcdDisplayOn := ⟨rfl, rfl⟩
theorem lcdClear : Statement .lcdClear := ⟨rfl, rfl⟩
theorem lcdEntryMode : Statement .lcdEntryMode := ⟨rfl, rfl⟩
theorem lcdFuncExt : Statement .lcdFuncExt := ⟨rfl, rfl⟩
theorem lcdFuncExtGfx : Statement .lcdFuncExtGfx := ⟨rfl, rfl⟩
theorem lcdCursorAddr (a b : BitVec 1) (c : BitVec 3) : Statement (.lcdCursorAddr a b c) := by
  refine ⟨rfl, ?_⟩; revert a b c; decide
theorem lcdRowSelect (r : BitVec 5) : Statement (.lcdRowSelect r) := by
  refine ⟨rfl, ?_⟩; revert r; decide
theorem lcdBankSelect (k : BitVec 1) : Statement (.lcdBankSelect k) := by
  refine ⟨rfl, ?_⟩; revert k; decide

end Sys2Proof.Laws.EncodesItsRow
end

