-- ==== Sys2Proof/Laws/Programs.lean ====
section
/-! SUPPORT. What every command's list of steps has in common: `MODE` is written after the last transfer
(`no_mode_before_transfer`), the counters stay in their range (`program_fits`), and the events are whole frames
(`program_items`). -/

namespace Sys2Proof.Machine

/-! ## `MODE` -/

/-- A step that writes `MODE`. -/
def Act.isMode : Act → Bool
  | .mode _ => true
  | _ => false

theorem foldl_onMode_of_no_mode (acts : List Act) (m : Mode) (h : ∀ a ∈ acts, a.isMode = false) :
    acts.foldl Act.onMode m = m := by
  induction acts generalizing m with
  | nil => rfl
  | cons a rest ih =>
    rw [List.foldl_cons, ih _ fun b hb => h b (List.mem_cons_of_mem _ hb)]
    have := h a (List.mem_cons_self ..)
    cases a <;> simp_all [Act.isMode, Act.onMode]

theorem frameActs_no_mode (s v : Byte) : ∀ a ∈ frameActs s v, a.isMode = false := by
  simp [frameActs, Act.isMode]

/-- A step of REFRESH is a step of one of its frames or sets one of its counters. -/
theorem mem_refreshActs {a : Act} {c : Config} {m : Memory} (h : a ∈ refreshActs c m) :
    (∃ s v, a ∈ frameActs s v) ∨ (∃ row ≤ 64, a = .row row) ∨ ∃ col ≤ 16, a = .col col := by
  simp only [refreshActs, refreshRowActs, refreshColumnActs, List.mem_append, List.mem_flatMap, List.mem_cons,
    List.not_mem_nil, or_false, List.cons_append, List.mem_range] at h
  rcases h with ⟨row, hr, h⟩ | rfl
  · rcases h with rfl | ((h | h) | ⟨col, hc, rfl | h⟩) | rfl
    · exact .inr (.inl ⟨row, by omega, rfl⟩)
    · exact .inl ⟨_, _, h⟩
    · exact .inl ⟨_, _, h⟩
    · exact .inr (.inr ⟨col, by omega, rfl⟩)
    · exact .inl ⟨_, _, h⟩
    · exact .inr (.inr ⟨16, by omega, rfl⟩)
  · exact .inr (.inl ⟨64, by omega, rfl⟩)

/-- A command's steps are a part that does not write `MODE` and a part that transfers nothing. -/
theorem program_split (op : Instr) (c : Config) (m : Memory) :
    ∃ body tail, program op c m = body ++ tail ∧ (∀ a ∈ body, a.isMode = false) ∧
      ∀ a ∈ tail, a.transfer = none := by
  have none_of : (∀ a ∈ program op c m, a.isMode = false) →
      ∃ body tail, program op c m = body ++ tail ∧ (∀ a ∈ body, a.isMode = false) ∧
        ∀ a ∈ tail, a.transfer = none :=
    fun h => ⟨_, [], (List.append_nil _).symm, h, by simp⟩
  cases op
  case reset =>
    refine ⟨_, [.mode .text], rfl, ?_, by simp [Act.transfer]⟩
    simp [frameActs, clearTextActs, Act.isMode]
  case enterGraphics =>
    refine ⟨_, [.mode .graphics], rfl, ?_, by simp [Act.transfer]⟩
    simp [frameActs, Act.isMode]
  case refresh =>
    apply none_of
    intro a ha
    rcases mem_refreshActs ha with ⟨s, v, h⟩ | ⟨_, -, rfl⟩ | ⟨_, -, rfl⟩
    · exact frameActs_no_mode _ _ _ h
    · rfl
    · rfl
  all_goals
    apply none_of
    simp [program, sendInstrActs, sendDataActs, clearTextActs, setCursorActs, frameInstrActs, frameDataActs,
      frameActs, Act.isMode]

/-- Before a transfer of a command nothing has written `MODE`. -/
theorem no_mode_before_transfer {op : Instr} {c : Config} {m : Memory} {pre post : List Act} {a : Act}
    (h : program op c m = pre ++ a :: post) (ha : a.transfer.isSome = true) : ∀ b ∈ pre, b.isMode = false := by
  obtain ⟨body, tail, h1, h2, h3⟩ := program_split op c m
  rw [h1, List.append_eq_append_iff] at h
  rcases h with ⟨as, rfl, h⟩ | ⟨bs, rfl, h⟩
  · have : a ∈ tail := by rw [h]; simp
    rw [h3 a this] at ha
    cases ha
  · exact fun b hb => h2 b (by simp [hb])

/-- The value a whole command leaves in `MODE`. -/
theorem program_onMode (op : Instr) (c : Config) (m : Memory) (k : Nat) (mode : Mode) :
    ((program op c m).drop k).foldl Act.onMode mode = mode ∨
      (op = .reset ∧ ((program op c m).drop k).foldl Act.onMode mode = .text) ∨
      (op = .enterGraphics ∧ ((program op c m).drop k).foldl Act.onMode mode = .graphics) := by
  have none_of : (∀ a ∈ program op c m, a.isMode = false) →
      ((program op c m).drop k).foldl Act.onMode mode = mode :=
    fun h => foldl_onMode_of_no_mode _ _ fun a ha => h a (List.mem_of_mem_drop ha)
  have tail_of : ∀ (body : List Act) (m' : Mode), program op c m = body ++ [.mode m'] →
      (∀ a ∈ body, a.isMode = false) → ((program op c m).drop k).foldl Act.onMode mode = mode ∨
        ((program op c m).drop k).foldl Act.onMode mode = m' := by
    intro body m' he hb
    rw [he, List.drop_append]
    cases hk : k - body.length with
    | zero => exact .inr (by simp [Act.onMode])
    | succ j =>
      refine .inl (foldl_onMode_of_no_mode _ _ ?_)
      simp
      exact fun a ha => hb a (List.mem_of_mem_drop ha)
  cases op
  case reset =>
    rcases tail_of _ _ rfl (by simp [frameActs, clearTextActs, Act.isMode]) with h | h
    · exact .inl h
    · exact .inr (.inl ⟨rfl, h⟩)
  case enterGraphics =>
    rcases tail_of _ _ rfl (by simp [frameActs, Act.isMode]) with h | h
    · exact .inl h
    · exact .inr (.inr ⟨rfl, h⟩)
  case refresh =>
    refine .inl (none_of fun a ha => ?_)
    rcases mem_refreshActs ha with ⟨s, v, h⟩ | ⟨_, -, rfl⟩ | ⟨_, -, rfl⟩
    · exact frameActs_no_mode _ _ _ h
    · rfl
    · rfl
  all_goals
    refine .inl (none_of ?_)
    simp [program, sendInstrActs, sendDataActs, clearTextActs, setCursorActs, frameInstrActs, frameDataActs,
      frameActs, Act.isMode]

/-! ## The reset line -/

/-- No step of any other command than RESET drives the reset line (10_state R24). -/
theorem program_keeps_line {op : Instr} (h : op ≠ .reset) (c : Config) (m : Memory) :
    ∀ a ∈ program op c m, ∀ b, Act.onLine b a = b := by
  have frame : ∀ s v, ∀ a ∈ frameActs s v, ∀ b, Act.onLine b a = b := by simp [frameActs, Act.onLine]
  cases op
  case reset => exact absurd rfl h
  case refresh =>
    intro a ha
    rcases mem_refreshActs ha with ⟨s, v, h⟩ | ⟨_, -, rfl⟩ | ⟨_, -, rfl⟩
    · exact frame _ _ _ h
    · exact fun _ => rfl
    · exact fun _ => rfl
  all_goals
    simp [program, sendInstrActs, sendDataActs, clearTextActs, enterGraphicsActs, setCursorActs, frameInstrActs,
      frameDataActs, frameActs, Act.onLine]

theorem foldl_onLine_of_keeps (acts : List Act) (b : Bool) (h : ∀ a ∈ acts, ∀ b, Act.onLine b a = b) :
    acts.foldl Act.onLine b = b := by
  induction acts with
  | nil => rfl
  | cons a rest ih =>
    rw [List.foldl_cons, h a (List.mem_cons_self ..), ih fun c hc => h c (List.mem_cons_of_mem _ hc)]

/-- Before a transfer of RESET the reset line is high again (41_mode R125). -/
theorem reset_line_before_transfer {c : Config} {m : Memory} {pre post : List Act} {a : Act}
    (h : program .reset c m = pre ++ a :: post) (ha : a.transfer.isSome = true) (b : Bool) :
    pre.foldl Act.onLine b = true := by
  obtain ⟨rest, hp, hr⟩ : ∃ rest, program .reset c m =
      .rst false :: .hold .rstLow :: .rst true :: .hold .rstHigh :: rest ∧
        ∀ a ∈ rest, ∀ b, Act.onLine b a = b :=
    ⟨_, rfl, by simp [clearTextActs, frameActs, Act.onLine]⟩
  rw [hp] at h
  match pre, h with
  | [], h => cases h; cases ha
  | [_], h => cases h; cases ha
  | [_, _], h => cases h; cases ha
  | [_, _, _], h => cases h; cases ha
  | _ :: _ :: _ :: _ :: tail, h =>
    simp only [List.cons_append, List.cons.injEq] at h
    obtain ⟨rfl, rfl, rfl, rfl, h⟩ := h
    exact foldl_onLine_of_keeps tail true fun x hx => hr x (by rw [h]; simp [hx])

/-! ## The counters -/

/-- A step after which the working registers still fit if they did before. -/
def Act.counterOk : Act → Bool
  | .row n => n ≤ 64
  | .col n => n ≤ 16
  | _ => true

theorem foldl_onWork_fits (acts : List Act) (w : Work) (h : ∀ a ∈ acts, a.counterOk = true)
    (hw : w.fits = true) : (acts.foldl Act.onWork w).fits = true := by
  induction acts generalizing w with
  | nil => exact hw
  | cons a rest ih =>
    refine ih _ (fun b hb => h b (List.mem_cons_of_mem _ hb)) ?_
    have ha := h a (List.mem_cons_self ..)
    cases a
    case row n =>
      simp only [Work.fits, Act.onWork, Bool.and_eq_true] at hw ⊢
      exact ⟨⟨hw.1.1, ha⟩, hw.2⟩
    case col n =>
      simp only [Work.fits, Act.onWork, Bool.and_eq_true] at hw ⊢
      exact ⟨hw.1, ha⟩
    all_goals exact hw

theorem program_fits (op : Instr) (c : Config) (m : Memory) : ∀ a ∈ program op c m, a.counterOk = true := by
  cases op
  case refresh =>
    intro a ha
    rcases mem_refreshActs ha with ⟨s, v, h⟩ | ⟨_, h, rfl⟩ | ⟨_, h, rfl⟩
    · simp only [frameActs, List.mem_cons, List.not_mem_nil, or_false] at h
      rcases h with rfl | rfl | rfl | rfl | rfl <;> rfl
    · simpa [Act.counterOk] using h
    · simpa [Act.counterOk] using h
  all_goals
    simp [program, sendInstrActs, sendDataActs, resetActs, enterGraphicsActs, clearTextActs, setCursorActs,
      frameInstrActs, frameDataActs, frameActs, Act.counterOk]

/-- Whatever part of a command has run, the working registers still fit. -/
theorem proceedWithin_fits {s : State} {op : Instr} {j : Nat} {acts : List Act}
    (ha : acts = (program op s.cfg s.fb).drop j) (hw : s.work.fits = true) (n k : Nat) :
    (s.proceedWithin op n k acts).work.fits = true := by
  rw [proceedWithin_work, foldl_applyAct_work]
  exact foldl_onWork_fits _ _
    (fun a h => program_fits op s.cfg s.fb a (List.mem_of_mem_drop (ha ▸ List.mem_of_mem_take h))) hw

/-! ## Whole frames -/

/-- A list of steps whose events are whole frames and other items, three transfers a frame. -/
def framedAs (acts : List Act) (is : List Item) : Prop :=
  items (acts.filterMap Act.event) = some is ∧ transfers acts = 3 * (framesOf is).length

theorem framedAs_nil : framedAs [] [] := ⟨rfl, rfl⟩

theorem framedAs_append {a b : List Act} {is js : List Item} (ha : framedAs a is) (hb : framedAs b js) :
    framedAs (a ++ b) (is ++ js) := by
  refine ⟨?_, ?_⟩
  · rw [List.filterMap_append]
    exact items_append ha.1 hb.1
  · have h1 := ha.2
    have h2 := hb.2
    simp [framesOf] at *
    omega

/-- One frame. -/
theorem framedAs_frame (v : Byte) :
    framedAs (frameActs syncInstr v) [.frame .instruction v] ∧
      framedAs (frameActs syncData v) [.frame .data v] := by
  obtain ⟨h1, h2⟩ := unframe_frame v
  refine ⟨⟨?_, rfl⟩, ⟨?_, rfl⟩⟩
  · simp [frameActs, List.filterMap, Act.event, items, h1, consItem]
  · simp [frameActs, List.filterMap, Act.event, items, h2, consItem]

/-- Steps without an event or a transfer. -/
theorem framedAs_silent {acts : List Act} (h : ∀ a ∈ acts, a.event = none ∧ a.transfer = none) :
    framedAs acts [] := by
  have h1 : acts.filterMap Act.event = [] := by
    rw [List.filterMap_eq_nil_iff]; exact fun a ha => (h a ha).1
  have h2 : acts.filterMap Act.transfer = [] := by
    rw [List.filterMap_eq_nil_iff]; exact fun a ha => (h a ha).2
  exact ⟨by rw [h1]; rfl, by rw [transfers, h2]; rfl⟩

theorem framedAs_flatMap {α : Type} (l : List α) (f : α → List Act) (g : α → List Item)
    (h : ∀ a ∈ l, framedAs (f a) (g a)) : framedAs (l.flatMap f) (l.flatMap g) := by
  induction l with
  | nil => exact framedAs_nil
  | cons a rest ih =>
    exact framedAs_append (h a (List.mem_cons_self ..)) (ih fun b hb => h b (List.mem_cons_of_mem _ hb))

/-- The items of one row of REFRESH: row select, bank select, sixteen data bytes (45_refresh_pump R190). -/
def refreshRowItems (c : Config) (m : Memory) (row : Nat) : List Item :=
  [.frame .instruction (rowSelectByte c row), .frame .instruction (bankSelectByte c row)] ++
    (List.range 16).map fun col => .frame .data (m.read (row * 16 + col))

theorem framedAs_refreshRow (c : Config) (m : Memory) (row : Nat) :
    framedAs (refreshRowActs c m row) (refreshRowItems c m row) := by
  have e1 : framedAs (.row row :: frameActs syncInstr (rowSelectByte c row))
      [.frame .instruction (rowSelectByte c row)] :=
    framedAs_append (a := [.row row]) (framedAs_silent (by simp [Act.event, Act.transfer]))
      (framedAs_frame _).1
  have e2 : framedAs ((List.range 16).flatMap (refreshColumnActs m row))
      ((List.range 16).flatMap fun col => [Item.frame .data (m.read (row * 16 + col))]) := by
    apply framedAs_flatMap
    intro col _
    exact framedAs_append (a := [.col col]) (framedAs_silent (by simp [Act.event, Act.transfer]))
      (framedAs_frame _).2
  rw [← List.map_eq_flatMap] at e2
  have e3 := framedAs_append (framedAs_append (framedAs_append e1 (framedAs_frame (bankSelectByte c row)).1) e2)
    (framedAs_silent (acts := [.col 16]) (by simp [Act.event, Act.transfer]))
  simpa [refreshRowActs, refreshRowItems] using e3

/-- The 1152 items of REFRESH. -/
def refreshItems (c : Config) (m : Memory) : List Item := (List.range 64).flatMap (refreshRowItems c m)

theorem framedAs_refresh (c : Config) (m : Memory) : framedAs (refreshActs c m) (refreshItems c m) := by
  have e := framedAs_append
    (framedAs_flatMap (List.range 64) (refreshRowActs c m) (refreshRowItems c m)
      fun row _ => framedAs_refreshRow c m row)
    (framedAs_silent (acts := [.row 64]) (by simp [Act.event, Act.transfer]))
  simpa [refreshActs, refreshItems] using e

/-- The items of any command: whole frames, and only RESET and CLEAR_TEXT have others (40_bus R117). -/
theorem program_items (op : Instr) (c : Config) (m : Memory) :
    ∃ is, framedAs (program op c m) is ∧
      (op ≠ .reset → op ≠ .clearText → is.length = (framesOf is).length) := by
  have hold : ∀ t : Hold, t ≠ .settle → framedAs [.hold t] [.hold t] := by
    intro t ht
    cases t <;> first | exact absurd rfl ht | exact ⟨rfl, rfl⟩
  have line : ∀ b : Bool, framedAs [.rst b] [.rst b] := fun b => ⟨rfl, rfl⟩
  have clear := framedAs_append (framedAs_frame c.opClear).1 (hold .clear (by decide))
  have silent : ∀ m' : Mode, framedAs [.mode m'] [] := fun m' =>
    framedAs_silent (by simp [Act.event, Act.transfer])
  have frame : ∀ v, framedAs (frameActs syncInstr v) [.frame .instruction v] := fun v => (framedAs_frame v).1
  have data : ∀ v, framedAs (frameActs syncData v) [.frame .data v] := fun v => (framedAs_frame v).2
  cases op
  case reset =>
    exact ⟨_, framedAs_append (framedAs_append (framedAs_append (framedAs_append (framedAs_append
      (framedAs_append
        (framedAs_append (a := [.rst false]) (line false) (framedAs_append (a := [.hold .rstLow])
          (hold .rstLow (by decide)) (framedAs_append (a := [.rst true]) (line true)
            (hold .rstHigh (by decide)))))
        (frame _)) (frame _)) (frame _)) clear) (frame _)) (silent .text), fun h => absurd rfl h⟩
  case clearText => exact ⟨_, clear, fun _ h => absurd rfl h⟩
  case enterGraphics =>
    exact ⟨_, framedAs_append (framedAs_append (frame _) (frame _)) (silent .graphics), fun _ _ => rfl⟩
  case setCursor line col =>
    exact ⟨_, framedAs_append (a := [.addr _]) (framedAs_silent (by simp [Act.event, Act.transfer]))
      (frame _), fun _ _ => rfl⟩
  case refresh =>
    refine ⟨_, framedAs_refresh c m, fun _ _ => ?_⟩
    simp [refreshItems, refreshRowItems, framesOf, List.length_flatMap, List.filterMap_flatMap]
  case sendInstr byte => exact ⟨_, frame _, fun _ _ => rfl⟩
  case sendData byte => exact ⟨_, data _, fun _ _ => rfl⟩
  case frameInstr h l => exact ⟨_, frame _, fun _ _ => rfl⟩
  case frameData h l => exact ⟨_, data _, fun _ _ => rfl⟩
  case lcdFuncBasic => exact ⟨_, frame _, fun _ _ => rfl⟩
  case lcdDisplayOn => exact ⟨_, frame _, fun _ _ => rfl⟩
  case lcdClear => exact ⟨_, frame _, fun _ _ => rfl⟩
  case lcdEntryMode => exact ⟨_, frame _, fun _ _ => rfl⟩
  case lcdFuncExt => exact ⟨_, frame _, fun _ _ => rfl⟩
  case lcdFuncExtGfx => exact ⟨_, frame _, fun _ _ => rfl⟩
  case lcdCursorAddr a b col => exact ⟨_, frame _, fun _ _ => rfl⟩
  case lcdRowSelect r => exact ⟨_, frame _, fun _ _ => rfl⟩
  case lcdBankSelect k => exact ⟨_, frame _, fun _ _ => rfl⟩
  all_goals exact ⟨[], framedAs_nil, fun _ _ => rfl⟩

/-! ## Waiting -/

/-- The physical bytes among the events of some steps are their transfers. -/
theorem bytesOf_events_length (acts : List Act) :
    (bytesOf (acts.filterMap Act.event)).length = transfers acts := by
  induction acts with
  | nil => rfl
  | cons a rest ih =>
    rw [transfers_cons, ← ih]
    cases a <;> simp [Act.event, Act.transfer, bytesOf, List.filterMap_cons]

/-- A command completes, or stops before one of its transfers. -/
theorem proceed_cases (s : State) (op : Instr) (n : Nat) (acts : List Act) :
    (s.busAllows (transfers acts) = true ∧
      s.proceed op n acts = { runActs acts s with seq := .idle, inFlight := none }) ∨
    ∃ pre a post, acts = pre ++ a :: post ∧ a.transfer.isSome = true ∧ s.bus = some (transfers pre) ∧
      s.proceed op n acts =
        { runActs pre s with seq := .busy op (n + pre.length), inFlight := a.transfer } := by
  cases h : s.busAllows (transfers acts) with
  | true => exact .inl ⟨rfl, proceed_complete h op n⟩
  | false => exact .inr (proceed_stalls h op n)

/-- What going on with a waiting command leaves in `MODE`. -/
theorem resume_mode (s : State) (op : Instr) (n : Nat) :
    (s.resume op n).mode = s.mode ∨ (s.resume op n).mode = .text ∨ (s.resume op n).mode = .graphics := by
  unfold State.resume
  rcases proceed_cases s op n ((program op s.cfg s.fb).drop n) with ⟨-, he⟩ | ⟨pre, a, post, hp, ha, -, he⟩
  · rw [he, runActs_eq]
    exact (program_onMode op s.cfg s.fb n s.mode).imp id (.imp And.right And.right)
  · left
    rw [he, runActs_eq]
    have hp' : program op s.cfg s.fb = ((program op s.cfg s.fb).take n ++ pre) ++ a :: post := by
      rw [List.append_assoc, ← hp, List.take_append_drop]
    exact foldl_onMode_of_no_mode _ s.mode fun b hb => no_mode_before_transfer hp' ha b (by simp [hb])

theorem reach_append (acts rest : List Act) (j : Nat) :
    reach (some (transfers acts + j)) (acts ++ rest) = acts.length + reach (some j) rest := by
  induction acts with
  | nil => simp
  | cons b tail ih =>
    rw [transfers_cons]
    cases hb : b.transfer with
    | none => simp [reach, hb, ih]; omega
    | some v =>
      have : transfers tail + 1 + j = transfers tail + j + 1 := by omega
      simp [reach, hb, this, ih]; omega

/-- Running a command is running a first part of its steps and going on with the others. -/
theorem proceed_append {s : State} {acts : List Act} {j : Nat} (h : s.bus = some (transfers acts + j))
    (op : Instr) (n : Nat) (rest : List Act) (q : Seq) (f : Option Byte) :
    s.proceed op n (acts ++ rest) =
      State.proceed { runActs acts s with seq := q, inFlight := f } op (n + acts.length) rest := by
  have hr := reach_append acts rest j
  have hj : transfers acts + j - transfers acts = j := by omega
  have h1 : (acts ++ rest).take (acts.length + reach (some j) rest) = acts ++ rest.take (reach (some j) rest) := by
    rw [List.take_append]; simp
  have h2 : (acts ++ rest).drop (acts.length + reach (some j) rest) = rest.drop (reach (some j) rest) := by
    rw [List.drop_append]; simp
  obtain ⟨u, hu⟩ : ∃ u : State, u = { runActs acts s with seq := q, inFlight := f } := ⟨_, rfl⟩
  have hb : u.bus = some j := by rw [hu]; simp [foldl_applyAct_bus, h]
  have e : ∀ r, runActs r u = { runActs (acts ++ r) s with seq := q, inFlight := f } := by
    intro r
    rw [runActs_append, hu, runActs_eq r, runActs_eq r (runActs acts s)]
  rw [← hu]
  simp only [State.proceed, State.advance, h, hr, h1, h2, hb, e]
  cases rest.drop (reach (some j) rest) with
  | nil => rfl
  | cons b l => simp only [Nat.add_assoc]

/-! ## REFRESH, frame by frame -/

/-- Item `18 * row + j` of REFRESH is item `j` of its row (45_refresh_pump R193). -/
theorem refreshItems_get (c : Config) (m : Memory) (row : Nat) (hr : row < 64) (j : Nat) (hj : j < 18) :
    (refreshItems c m)[18 * row + j]? = (refreshRowItems c m row)[j]? := by
  have gen : ∀ n, row < n →
      ((List.range n).flatMap (refreshRowItems c m))[18 * row + j]? = (refreshRowItems c m row)[j]? := by
    intro n
    induction n with
    | zero => intro h; omega
    | succ n ih =>
      intro h
      have hl : ((List.range n).flatMap (refreshRowItems c m)).length = 18 * n := by
        simp [List.length_flatMap, refreshRowItems]; omega
      rw [List.range_succ, List.flatMap_append]
      by_cases hn : row < n
      · rw [List.getElem?_append_left (by omega)]; exact ih hn
      · have : row = n := by omega
        subst this
        rw [List.getElem?_append_right (by omega), hl]
        simp
  exact gen 64 hr

/-- A trace of frames only has one settle hold and four events a frame. -/
theorem items_frames_count (c : Config) (es : List Event) (js : List Item) (h : items es = some js)
    (hj : ∀ j ∈ js, ∃ k v, j = Item.frame k v) :
    es.count (Event.hold Hold.settle) = js.length ∧ es.length = 4 * js.length ∧
      holdTime c es = js.length * c.tSettle := by
  induction es using items.induct generalizing js with
  | case1 => simp [items] at h; subst h; simp [holdTime]
  | case2 l rest ih | case4 rest ih | case5 rest ih | case6 rest ih =>
    cases hr : items rest with
    | none => simp [items, hr, consItem] at h
    | some ks =>
      simp only [items, hr, consItem, Option.some.injEq] at h
      subst h
      obtain ⟨k, v, h⟩ := hj _ (List.mem_cons_self ..)
      cases h
  | case3 rest => simp [items] at h
  | case7 b0 b1 b2 rest hf => simp [items, hf] at h
  | case8 b0 b1 b2 rest f hf ih =>
    cases hr : items rest with
    | none => simp [items, hf, hr, consItem] at h
    | some ks =>
      simp only [items, hf, hr, consItem, Option.some.injEq] at h
      subst h
      obtain ⟨h1, h2, h3⟩ := ih ks hr (fun j h => hj j (List.mem_cons_of_mem _ h))
      unfold holdTime at h3
      simp only [List.count_cons, h1, List.length_cons, h2, holdTime, List.map_cons, List.sum_cons, h3]
      have hh : c.holdMicros .settle = c.tSettle := rfl
      simp [hh]
      refine ⟨by omega, by ring⟩
  | case9 b rest hne => 
    rw [items] at h
    · cases h
    · exact hne

end Sys2Proof.Machine
end

