-- ==== Sys2Proof/Laws/Raster.lean ====
section
/-! SUPPORT. The loops of the rasterizer: the course of LINE's registers in closed form (`line_course`), the
invariant of CIRCLE's loop (`CircleInv`), and the points both plot. -/

namespace Sys2Proof.Machine

/-! ## LINE -/

/-- What LINE's registers hold before its loop (43_rasterizer_line R160). -/
structure LineInit (w : Work) : Prop where
  x : w.x = w.x0
  y : w.y = w.y0
  err : w.err = w.deltax / 2
  deltax : w.deltax = w.x1 - w.x0
  deltay : w.deltay = |w.y1 - w.y0|
  slope : w.deltay ≤ w.deltax
  ystep : w.ystep = if w.y0 < w.y1 then 1 else -1

theorem lineStart_init (x0 y0 x1 y1 : Int) (w : Work) : LineInit (lineStart x0 y0 x1 y1 w) := by
  have key : ∀ (b : Bool) (a0 b0 a1 b1 : Int), a0 ≤ a1 → |b1 - b0| ≤ a1 - a0 →
      LineInit { w with
        x0 := a0, y0 := b0, x1 := a1, y1 := b1, steep := b
        deltax := a1 - a0
        deltay := (b1 - b0).natAbs
        err := (a1 - a0) / 2
        ystep := if b0 < b1 then 1 else -1
        y := b0
        x := a0 } := by
    intro b a0 b0 a1 b1 h1 h2
    exact ⟨rfl, rfl, rfl, rfl, Int.natCast_natAbs _, by simpa using h2, rfl⟩
  unfold lineStart
  cases hs : steepOf x0 y0 x1 y1 <;> simp only [steepOf, decide_eq_true_eq, decide_eq_false_iff_not] at hs
  · by_cases hx : x0 > x1
    · simp only [Bool.false_eq_true, if_false, hx, if_true]
      refine key _ _ _ _ _ (by omega) ?_
      rw [abs_le]; omega
    · simp only [Bool.false_eq_true, if_false, hx]
      refine key _ _ _ _ _ (by omega) ?_
      rw [abs_le]; omega
  · by_cases hx : y0 > y1
    · simp only [if_true, hx]
      refine key _ _ _ _ _ (by omega) ?_
      rw [abs_le]; omega
    · simp only [if_true, hx, if_false]
      refine key _ _ _ _ _ (by omega) ?_
      rw [abs_le]; omega

theorem lineAfter_succ (k : Nat) (w : Work) : lineAfter (k + 1) w = lineNext (lineAfter k w) := by
  induction k generalizing w with
  | zero => rfl
  | succ k ih => exact ih (lineNext w)

/-- The registers the loop does not write. -/
theorem lineAfter_fixed (k : Nat) (w : Work) :
    lineAfter k w = { w with
      x := (lineAfter k w).x, y := (lineAfter k w).y, err := (lineAfter k w).err } := by
  induction k with
  | zero => rfl
  | succ k ih =>
    rw [lineAfter_succ]
    generalize lineAfter k w = v at *
    unfold lineNext
    rw [ih]
    dsimp only
    split <;> rfl

/-- The course of the loop: after `k` iterations `x` has advanced by `k`, `y` by the rounded multiple of the
slope, and `err` is in its range (43_rasterizer_line R164). -/
theorem line_course {w : Work} (h : LineInit w) (hd : 0 < w.deltax) (k : Nat) :
    (lineAfter k w).x = w.x0 + k ∧
      (lineAfter k w).y =
        w.y0 + w.ystep * ((k * w.deltay + (w.deltax - 1 - w.deltax / 2)) / w.deltax) ∧
      0 ≤ (lineAfter k w).err ∧ (lineAfter k w).err < w.deltax := by
  have main : ∃ m : Int, (lineAfter k w).x = w.x0 + k ∧ (lineAfter k w).y = w.y0 + w.ystep * m ∧
      (lineAfter k w).err = w.deltax / 2 - k * w.deltay + m * w.deltax ∧
      0 ≤ (lineAfter k w).err ∧ (lineAfter k w).err < w.deltax := by
    induction k with
    | zero => exact ⟨0, by simp [lineAfter, h.x], by simp [lineAfter, h.y], by simp [lineAfter, h.err],
        by rw [lineAfter, h.err]; omega, by rw [lineAfter, h.err]; omega⟩
    | succ k ih =>
      obtain ⟨m, h1, h2, h3, h4, h5⟩ := ih
      have hf := lineAfter_fixed k w
      have e1 : (lineAfter k w).deltay = w.deltay := by rw [hf]
      have e2 : (lineAfter k w).deltax = w.deltax := by rw [hf]
      have e3 : (lineAfter k w).ystep = w.ystep := by rw [hf]
      have hy : 0 ≤ w.deltay := by rw [h.deltay]; exact abs_nonneg _
      have hsl := h.slope
      have em : (m + 1) * w.deltax = m * w.deltax + w.deltax := by ring
      have ek : ((k + 1 : Nat) : Int) * w.deltay = k * w.deltay + w.deltay := by push_cast; ring
      have ey : w.ystep * (m + 1) = w.ystep * m + w.ystep := by ring
      rw [lineAfter_succ]
      simp only [lineNext, e1, e2, e3]
      split
      · refine ⟨m + 1, ?_, ?_, ?_, ?_, ?_⟩
        all_goals dsimp only
        · push_cast; omega
        · rw [ey, h2]; ring
        · rw [em, ek]; omega
        · omega
        · omega
      · refine ⟨m, ?_, ?_, ?_, ?_, ?_⟩
        all_goals dsimp only
        · push_cast; omega
        · exact h2
        · rw [ek]; omega
        · omega
        · omega
  obtain ⟨m, h1, h2, h3, h4, h5⟩ := main
  have hm : (k * w.deltay + (w.deltax - 1 - w.deltax / 2)) / w.deltax = m := by
    apply le_antisymm
    · apply Int.lt_add_one_iff.mp
      rw [Int.ediv_lt_iff_lt_mul hd]
      have em : (m + 1) * w.deltax = m * w.deltax + w.deltax := by ring
      omega
    · rw [Int.le_ediv_iff_mul_le hd]
      omega
  exact ⟨h1, by rw [hm]; exact h2, h4, h5⟩

/-- Before the last iteration is over `y` has not passed the other end. -/
theorem line_rise {w : Work} (h : LineInit w) (hd : 0 < w.deltax) {k : Nat} (hk : k ≤ lineCount w) :
    0 ≤ (k * w.deltay + (w.deltax - 1 - w.deltax / 2)) / w.deltax ∧
      (k * w.deltay + (w.deltax - 1 - w.deltax / 2)) / w.deltax ≤ w.deltay := by
  have hy : 0 ≤ w.deltay := by rw [h.deltay]; exact abs_nonneg _
  have hk' : (k : Int) ≤ w.deltax := by unfold lineCount at hk; omega
  have h1 : 0 ≤ k * w.deltay := mul_nonneg (by omega) hy
  have h2 : k * w.deltay ≤ w.deltax * w.deltay := mul_le_mul_of_nonneg_right hk' hy
  constructor
  · exact Int.ediv_nonneg (by omega) (by omega)
  · apply Int.lt_add_one_iff.mp
    rw [Int.ediv_lt_iff_lt_mul hd]
    have : (w.deltay + 1) * w.deltax = w.deltax * w.deltay + w.deltax := by ring
    omega

theorem mem_linePoints {n : Nat} {w : Work} {p : Int × Int} :
    p ∈ linePoints n w ↔ ∃ k < n, p = linePoint (lineAfter k w) := by
  induction n generalizing w with
  | zero => simp [linePoints]
  | succ n ih =>
    simp only [linePoints, List.mem_cons, ih]
    constructor
    · rintro (rfl | ⟨k, hk, rfl⟩)
      · exact ⟨0, by omega, rfl⟩
      · exact ⟨k + 1, by omega, rfl⟩
    · rintro ⟨k, hk, rfl⟩
      cases k with
      | zero => exact .inl rfl
      | succ k => exact .inr ⟨k, by omega, rfl⟩

theorem linePoints_length (n : Nat) (w : Work) : (linePoints n w).length = n := by
  induction n generalizing w with
  | zero => rfl
  | succ n ih => simp [linePoints, ih]

/-- Plotting leaves every byte that holds none of the visible points. -/
theorem read_plotVisible_other (points : List (Int × Int)) (m : Memory) (i : Nat)
    (h : ∀ p ∈ points, onScreen p.1 p.2 = true → pixelIndex p.1 p.2 ≠ i) :
    (plotVisible points m).read i = m.read i := by
  induction points generalizing m with
  | nil => rfl
  | cons p rest ih =>
    show (plotVisible rest (plotChecked m p.1 p.2)).read i = _
    rw [ih _ fun q hq => h q (List.mem_cons_of_mem _ hq)]
    unfold plotChecked
    split
    · exact read_write_other _ _ (h p (List.mem_cons_self ..) ‹_›).symm
    · rfl

/-- LINE's registers at the start for a line that is not steep, either way round. -/
theorem lineStart_shallow (x0 y0 x1 y1 : Int) (w : Work) (h : |y1 - y0| ≤ |x1 - x0|) :
    let v := lineStart x0 y0 x1 y1 w
    v.steep = false ∧
      ((x0 ≤ x1 ∧ v.x0 = x0 ∧ v.y0 = y0 ∧ v.x1 = x1 ∧ v.y1 = y1) ∨
        (x1 < x0 ∧ v.x0 = x1 ∧ v.y0 = y1 ∧ v.x1 = x0 ∧ v.y1 = y0)) := by
  intro v
  have hs : steepOf x0 y0 x1 y1 = false := by
    simp only [steepOf, decide_eq_false_iff_not]
    rw [Int.abs_eq_natAbs, Int.abs_eq_natAbs] at h; omega
  have e : v = lineStart x0 y0 x1 y1 w := rfl
  rw [e]
  unfold lineStart
  simp only [hs]
  by_cases hx : x0 > x1
  · simp [hx]
  · simp [hx]; omega

/-- The same for a steep line. -/
theorem lineStart_steep (x0 y0 x1 y1 : Int) (w : Work) (h : |x1 - x0| < |y1 - y0|) :
    let v := lineStart x0 y0 x1 y1 w
    v.steep = true ∧
      ((y0 ≤ y1 ∧ v.x0 = y0 ∧ v.y0 = x0 ∧ v.x1 = y1 ∧ v.y1 = x1) ∨
        (y1 < y0 ∧ v.x0 = y1 ∧ v.y0 = x1 ∧ v.x1 = y0 ∧ v.y1 = x0)) := by
  intro v
  have hs : steepOf x0 y0 x1 y1 = true := by
    simp only [steepOf, decide_eq_true_eq]
    rw [Int.abs_eq_natAbs, Int.abs_eq_natAbs] at h; omega
  have e : v = lineStart x0 y0 x1 y1 w := rfl
  rw [e]
  unfold lineStart
  simp only [hs]
  by_cases hx : y0 > y1
  · simp [hx]
  · simp [hx]; omega

/-- `y` stays between the minor coordinates of the ends. -/
theorem line_course_bounds {w : Work} (h : LineInit w) {k : Nat} (hk : k < lineCount w ∨ k = lineCount w)
    (hd : 0 < w.deltax) :
    min w.y0 w.y1 ≤ (lineAfter k w).y ∧ (lineAfter k w).y ≤ max w.y0 w.y1 := by
  obtain ⟨-, h2, -⟩ := line_course h hd k
  obtain ⟨h3, h4⟩ := line_rise h hd (k := k) (by omega)
  rw [h2, h.ystep]
  have := h.deltay
  generalize (↑k * w.deltay + (w.deltax - 1 - w.deltax / 2)) / w.deltax = m at *
  rw [this] at h4
  split
  · rw [abs_of_nonneg (by omega)] at h4; omega
  · rw [abs_of_nonpos (by omega)] at h4; omega

/-- LINE plots as many points as the longer side of its box (43_rasterizer_line R164). -/
theorem lineCount_eq (x0 y0 x1 y1 : Int) (w : Work) :
    lineCount (lineStart x0 y0 x1 y1 w) = max (x1 - x0).natAbs (y1 - y0).natAbs := by
  have hi := lineStart_init x0 y0 x1 y1 w
  unfold lineCount
  rw [hi.deltax]
  by_cases h : |y1 - y0| ≤ |x1 - x0|
  · obtain ⟨-, ⟨h0, h1, h2, h3, h4⟩ | ⟨h0, h1, h2, h3, h4⟩⟩ := lineStart_shallow x0 y0 x1 y1 w h
    all_goals rw [h1, h3]; rw [Int.abs_eq_natAbs, Int.abs_eq_natAbs] at h; omega
  · obtain ⟨-, ⟨h0, h1, h2, h3, h4⟩ | ⟨h0, h1, h2, h3, h4⟩⟩ := lineStart_steep x0 y0 x1 y1 w (by omega)
    all_goals rw [h1, h3]; rw [Int.abs_eq_natAbs, Int.abs_eq_natAbs] at h; omega

/-- Every plotted point lies in the bounding box of the endpoints (43_rasterizer_line R164). -/
theorem linePoints_box (x0 y0 x1 y1 : Int) (w : Work) :
    ∀ p ∈ linePoints (lineCount (lineStart x0 y0 x1 y1 w)) (lineStart x0 y0 x1 y1 w),
    min x0 x1 ≤ p.1 ∧ p.1 ≤ max x0 x1 ∧ min y0 y1 ≤ p.2 ∧ p.2 ≤ max y0 y1 := by
  intro p hp
  obtain ⟨k, hk, rfl⟩ := mem_linePoints.mp hp
  have hi := lineStart_init x0 y0 x1 y1 w
  have hd : 0 < (lineStart x0 y0 x1 y1 w).deltax := by unfold lineCount at hk; omega
  obtain ⟨c1, -, -, -⟩ := line_course hi hd k
  obtain ⟨b1, b2⟩ := line_course_bounds hi (k := k) (.inl hk) hd
  have hf : (lineAfter k (lineStart x0 y0 x1 y1 w)).steep = (lineStart x0 y0 x1 y1 w).steep := by
    rw [lineAfter_fixed]
  have hdx := hi.deltax
  unfold lineCount at hk
  unfold linePoint
  rw [hf]
  by_cases h : |y1 - y0| ≤ |x1 - x0|
  · obtain ⟨h5, ⟨h0, h1, h2, h3, h4⟩ | ⟨h0, h1, h2, h3, h4⟩⟩ := lineStart_shallow x0 y0 x1 y1 w h
    all_goals 
      rw [h5]; simp only [Bool.false_eq_true, if_false]
      rw [h2, h4] at b1 b2; rw [h1] at c1; rw [h1, h3] at hdx
      omega
  · obtain ⟨h5, ⟨h0, h1, h2, h3, h4⟩ | ⟨h0, h1, h2, h3, h4⟩⟩ := lineStart_steep x0 y0 x1 y1 w (by omega)
    all_goals 
      rw [h5]; simp only [if_true]
      rw [h2, h4] at b1 b2; rw [h1] at c1; rw [h1, h3] at hdx
      omega

/-! ## CIRCLE -/

/-- The invariant of CIRCLE's loop at the top of an iteration (44_rasterizer_circle R179). -/
structure CircleInv (v : CircleStep) (r : Int) (w : Work) : Prop where
  ynonneg : 0 ≤ w.y
  yle : w.y ≤ r
  xle : w.x ≤ r
  apart : w.y - 1 ≤ w.x
  value : w.e = match v with
    | .variantA => w.x ^ 2 - w.x + w.y ^ 2 - r ^ 2
    | .variantB => w.x ^ 2 + w.y ^ 2 - r ^ 2 - r
  below : w.e ≤ 0
  inside : w.y < w.x → w.e ≤ -1
  above : -(2 * r) ≤ w.e
  aboveA : v = .variantA → -(2 * w.x) ≤ w.e

theorem circleStart_inv (v : CircleStep) (cx cy : Int) {r : Int} (hr : 0 ≤ r) (w : Work) :
    CircleInv v r (circleStart cx cy r w) := by
  refine ⟨le_refl _, hr, le_refl _, ?_, ?_, ?_, ?_, ?_, ?_⟩ <;> simp only [circleStart]
  · omega
  · cases v <;> ring
  · omega
  · intro h; omega
  · omega
  · intro _; omega

theorem circleNext_inv {v : CircleStep} {r : Int} {w : Work} (h : CircleInv v r w) (hg : circleGoes w = true) :
    CircleInv v r (circleNext v w) := by
  obtain ⟨h1, h2, h3, h4, h5, h6, h7, h8, h9⟩ := h
  simp only [circleGoes, decide_eq_true_eq] at hg
  have h7 := h7 hg
  unfold circleNext
  cases v
  · have h9 := h9 rfl
    simp only [circleDrop]
    split
    · refine ⟨?_, ?_, ?_, ?_, ?_, ?_, ?_, ?_, ?_⟩ <;> dsimp only
      · omega
      · omega
      · omega
      · omega
      · rw [h5]; ring
      · omega
      · intro h; omega
      · omega
      · intro _; omega
    · refine ⟨?_, ?_, ?_, ?_, ?_, ?_, ?_, ?_, ?_⟩ <;> dsimp only
      · omega
      · omega
      · omega
      · omega
      · rw [h5]; ring
      · omega
      · intro h; omega
      · omega
      · intro _; omega
  · simp only [circleDrop]
    split
    · refine ⟨?_, ?_, ?_, ?_, ?_, ?_, ?_, ?_, ?_⟩ <;> dsimp only
      · omega
      · omega
      · omega
      · omega
      · rw [h5]; ring
      · omega
      · intro h; omega
      · omega
      · intro h; cases h
    · refine ⟨?_, ?_, ?_, ?_, ?_, ?_, ?_, ?_, ?_⟩ <;> dsimp only
      · omega
      · omega
      · omega
      · omega
      · rw [h5]; ring
      · omega
      · intro h; omega
      · omega
      · intro h; cases h

theorem circleAfter_inv {v : CircleStep} {r : Int} {w : Work} (h : CircleInv v r w) (n : Nat) :
    CircleInv v r (circleAfter v n w) := by
  induction n generalizing w with
  | zero => exact h
  | succ n ih =>
    unfold circleAfter
    split
    · exact ih (circleNext_inv h ‹_›)
    · exact h

/-- The registers the loop does not write. -/
theorem circleAfter_fixed (v : CircleStep) (n : Nat) (w : Work) :
    circleAfter v n w = { w with
      x := (circleAfter v n w).x, y := (circleAfter v n w).y, e := (circleAfter v n w).e } := by
  induction n generalizing w with
  | zero => rfl
  | succ n ih =>
    unfold circleAfter
    split
    · rw [ih]
      unfold circleNext
      dsimp only
      split <;> rfl
    · rfl

theorem circleAfter_done {v : CircleStep} {n : Nat} {w : Work} (h : circleGoes w = false) :
    circleAfter v n w = w := by
  cases n <;> simp [circleAfter, h]

/-- `y` counts the iterations, so as many as `x` started above it end the loop. -/
theorem circleAfter_ends {v : CircleStep} (n : Nat) (w : Work) (h : w.x - w.y ≤ n) :
    circleGoes (circleAfter v n w) = false := by
  induction n generalizing w with
  | zero => simp [circleAfter, circleGoes]; omega
  | succ n ih =>
    unfold circleAfter
    split
    · apply ih
      unfold circleNext
      dsimp only
      split <;> (dsimp only; omega)
    · exact Bool.not_eq_true _ ▸ ‹¬circleGoes w = true›

/-- A plotted offset, up to sign and exchange, is that of some top of the loop. -/
theorem mem_circlePoints {v : CircleStep} {n : Nat} {w : Work} {p : Int × Int} (h : p ∈ circlePoints v n w) :
    ∃ k < n, circleGoes (circleAfter v k w) = true ∧
      p ∈ plot8 w.cx w.cy (circleAfter v k w).x (circleAfter v k w).y := by
  induction n generalizing w with
  | zero => simp [circlePoints] at h
  | succ n ih =>
    unfold circlePoints at h
    split at h
    · rename_i hg
      rcases List.mem_append.mp h with h | h
      · exact ⟨0, by omega, hg, h⟩
      · obtain ⟨k, hk, h1, h2⟩ := ih h
        refine ⟨k + 1, by omega, ?_, ?_⟩
        · simpa [circleAfter, hg] using h1
        · have e : (circleNext v w).cx = w.cx ∧ (circleNext v w).cy = w.cy := by
            unfold circleNext; dsimp only; split <;> exact ⟨rfl, rfl⟩
          simpa [circleAfter, hg, e] using h2
    · simp at h

/-- The eight points by their offsets from the centre. -/
theorem mem_plot8 {cx cy a b : Int} {p : Int × Int} : p ∈ plot8 cx cy a b ↔
    (p.1 - cx = a ∨ p.1 - cx = -a) ∧ (p.2 - cy = b ∨ p.2 - cy = -b) ∨
    (p.1 - cx = b ∨ p.1 - cx = -b) ∧ (p.2 - cy = a ∨ p.2 - cy = -a) := by
  obtain ⟨x, y⟩ := p
  simp only [plot8, plot4, List.mem_append, List.mem_cons, List.not_mem_nil, or_false, Prod.mk.injEq]
  omega

/-- A loop that ends with `x = y - 1` has plotted the eight points of that end already. -/
theorem circlePoints_last {v : CircleStep} (n : Nat) (w : Work) (hg : circleGoes w = true)
    (he : circleGoes (circleAfter v n w) = false) (hx : (circleAfter v n w).x = (circleAfter v n w).y - 1) :
    ∀ p ∈ plot8 w.cx w.cy (circleAfter v n w).x (circleAfter v n w).y, p ∈ circlePoints v n w := by
  induction n generalizing w with
  | zero => rw [circleAfter] at he; rw [hg] at he; cases he
  | succ n ih =>
    intro p hp
    have hcx : (circleNext v w).cx = w.cx ∧ (circleNext v w).cy = w.cy := by
      unfold circleNext; dsimp only; split <;> exact ⟨rfl, rfl⟩
    simp only [circleAfter, hg, if_true] at he hx hp
    simp only [circlePoints, hg, if_true]
    cases hg' : circleGoes (circleNext v w) with
    | true => 
      rw [← hcx.1, ← hcx.2] at hp
      exact List.mem_append_right _ (ih _ hg' he hx p hp)
    | false =>
      rw [circleAfter_done hg'] at hx hp
      refine List.mem_append_left _ ?_
      simp only [circleGoes, decide_eq_true_eq] at hg
      rw [mem_plot8] at *
      have : (circleNext v w).x = w.y ∧ (circleNext v w).y = w.x := by
        unfold circleNext at *; dsimp only at *
        split at hx <;> dsimp only at * 
        · rename_i h; simp only [h, if_true]; omega
        · omega
      rw [this.1, this.2] at hp
      omega

end Sys2Proof.Machine
end

