-- ==== Sys2Proof/Laws/ResetPin.lean ====
section
/-! SUPPORT. What a command cut by `rst_n` can leave: everything `execCut` does (`execCut_next`), a part of the
command's events with the level they leave on the reset line (`foldl_applyAct_lineLevel`), and a part of its writes
(`partialFb_ok`). -/

namespace Sys2Proof.Machine

/-! ## The reset line -/

theorem lineLevel_append (b : Bool) (es fs : List Event) :
    lineLevel b (es ++ fs) = lineLevel (lineLevel b es) fs := by
  simp [lineLevel]

/-- Completed steps leave the reset line where their events say. -/
theorem foldl_applyAct_lineLevel (acts : List Act) (s : State) :
    (acts.foldl applyAct s).rstLine = lineLevel s.rstLine (acts.filterMap Act.event) := by
  induction acts generalizing s with
  | nil => rfl
  | cons a rest ih =>
    rw [List.foldl_cons, ih]
    cases a <;> simp [applyAct, Act.event, lineLevel, List.filterMap_cons]

/-! ## A part of a list of steps -/

theorem take_events_prefix (acts : List Act) (k : Nat) :
    (acts.take k).filterMap Act.event <+: acts.filterMap Act.event :=
  (List.take_prefix k acts).filterMap _

/-- Every part of the events is what some number of steps emits. -/
theorem events_prefix_reached {acts : List Act} {es : List Event} (h : es <+: acts.filterMap Act.event) :
    ∃ k ≤ acts.length, (acts.take k).filterMap Act.event = es := by
  induction acts generalizing es with
  | nil => exact ⟨0, le_rfl, (List.prefix_nil.mp h).symm⟩
  | cons a rest ih =>
    cases es with
    | nil => exact ⟨0, by simp, rfl⟩
    | cons e es =>
      cases ha : a.event with
      | none =>
        rw [List.filterMap_cons_none ha] at h
        obtain ⟨k, hk, hes⟩ := ih h
        exact ⟨k + 1, by simpa using hk, by rw [List.take_succ_cons, List.filterMap_cons_none ha, hes]⟩
      | some e' =>
        rw [List.filterMap_cons_some ha, List.cons_prefix_cons] at h
        obtain ⟨rfl, h⟩ := h
        obtain ⟨k, hk, hes⟩ := ih h
        exact ⟨k + 1, by simpa using hk, by rw [List.take_succ_cons, List.filterMap_cons_some ha, hes]⟩

/-- No more transfers complete than the bus has completions. -/
theorem transfers_take_reach (c : Nat) (acts : List Act) (k : Nat) :
    transfers (acts.take (min k (reach (some c) acts))) ≤ c := by
  have mono : ∀ (acts : List Act) (j k : Nat), j ≤ k → transfers (acts.take j) ≤ transfers (acts.take k) := by
    intro acts j k h
    obtain ⟨d, rfl⟩ := Nat.exists_eq_add_of_le h
    rw [List.take_add, transfers_append]
    omega
  refine le_trans (mono _ _ _ (Nat.min_le_right _ _)) ?_
  by_cases h : transfers acts ≤ c
  · rw [reach_some_of_le h, List.take_length]; exact h
  · obtain ⟨pre, a, post, rfl, -, hp, hr⟩ := reach_some_split (c := c) (acts := acts) (by omega)
    rw [hr, List.take_left, hp]

/-! ## Writes of `FB` -/

/-- FB_CLEAR's first `k` writes. -/
theorem read_clearFirst (k : Nat) (m : Memory) (i : Nat) :
    (clearFirst k m).read i = if i < k then 0 else m.read i := by
  induction k with
  | zero => rfl
  | succ k ih =>
    rw [clearFirst, read_write, ih]
    split
    · rw [if_pos (by omega)]
    · congr 1; simp only [eq_iff_iff]; omega

theorem clearFirst_wf {k : Nat} (hk : k ≤ 1024) {m : Memory} (h : m.wf = true) :
    (clearFirst k m).wf = true := by
  induction k with
  | zero => exact h
  | succ k ih => exact write_wf _ _ _ (by omega) (ih (by omega))

/-- What a command has written when it is cut: FB_CLEAR its first bytes, any other some points. -/
theorem partialFb_ok {i : Instr} {k : Nat} {s : State} {m : Memory} (h : partialFb i k s = .ok m) :
    (i = .fbClear ∧ m = clearFirst k s.fb) ∨ ∃ points, m = plotVisible points s.fb := by
  cases i
  case fbClear => cases h; exact .inl ⟨rfl, rfl⟩
  case line x0 y0 x1 y1 => exact .inr ⟨_, (plotUnchecked_ok h).2⟩
  case circle cx cy r => cases h; exact .inr ⟨_, rfl⟩
  all_goals cases h; exact .inr ⟨[], rfl⟩

theorem partialFb_wf {i : Instr} {k : Nat} {s : State} {m : Memory} (hk : k < stepCount i s)
    (h : partialFb i k s = .ok m) (hs : s.fb.wf = true) : m.wf = true := by
  rcases partialFb_ok h with ⟨rfl, rfl⟩ | ⟨points, rfl⟩
  · exact clearFirst_wf (Nat.le_of_lt hk) hs
  · exact plotVisible_wf _ _ hs

/-- A command on the device pins has the steps of its program, and a drawing command is cut between its writes. -/
theorem stepCount_bus {i : Instr} (h : usesBus i = true) (s : State) :
    stepCount i s = (program i s.cfg s.fb).length ∧ ∀ k, partialFb i k s = .ok s.fb := by
  cases i <;> first | exact Bool.noConfusion h | exact ⟨rfl, fun _ => rfl⟩

/-- Plotting first some points, then others. -/
theorem plotVisible_append (a b : List (Int × Int)) (m : Memory) :
    plotVisible (a ++ b) m = plotVisible b (plotVisible a m) := by
  simp [plotVisible]

/-- Of a list of points partly plotted, each bit is as before or as all of them leave it. -/
theorem plotVisible_take_bits (points : List (Int × Int)) (k : Nat) (m : Memory) (j b : Nat) :
    ((plotVisible (points.take k) m).read j).getLsbD b = (m.read j).getLsbD b ∨
      ((plotVisible (points.take k) m).read j).getLsbD b = ((plotVisible points m).read j).getLsbD b := by
  have h1 := congrArg (·.getLsbD b) (plotVisible_keeps_bits (points.take k) m j)
  have h2 := congrArg (·.getLsbD b) (plotVisible_keeps_bits (points.drop k) (plotVisible (points.take k) m) j)
  rw [← plotVisible_append, List.take_append_drop] at h2
  simp only [BitVec.getLsbD_and] at h1 h2
  cases h : ((plotVisible (points.take k) m).read j).getLsbD b
  · exact .inl (by rw [h] at h1; simpa using h1)
  · exact .inr (by rw [h] at h2; simpa using h2.symm)

/-- Of a command cut short, each bit of `FB` is as before or as the whole command leaves it. -/
theorem partialFb_bits {i : Instr} {k : Nat} {s u : State} {m : Memory} (hk : k < stepCount i s)
    (hm : partialFb i k s = .ok m) (hu : exec i s = .next u) (j b : Nat) :
    (m.read j).getLsbD b = (s.fb.read j).getLsbD b ∨ (m.read j).getLsbD b = (u.fb.read j).getLsbD b := by
  cases i
  case fbClear =>
    have hz := read_zeroed (i := j)
    have hu : u.fb = Memory.zeroed := by
      simp only [exec, execFbClear, Host.Outcome.next.injEq] at hu
      rw [← hu]
    rw [← hu] at hz
    cases hm
    rw [read_clearFirst]
    split
    · exact .inr (congrArg (·.getLsbD b) (hz (Nat.lt_trans ‹_› hk)).symm)
    · exact .inl rfl
  case line x0 y0 x1 y1 =>
    simp only [exec, execLine] at hu
    split at hu
    · rename_i m' hm'
      cases hu
      rw [(plotUnchecked_ok hm).2, (plotUnchecked_ok hm').2]
      exact plotVisible_take_bits _ _ _ _ _
    · cases hu
  case circle cx cy r =>
    cases hm
    cases hu
    exact plotVisible_take_bits _ _ _ _ _
  all_goals cases hm; exact .inl rfl

/-! ## The record of contracts -/

/-- Acceptance changes the record of contracts only. -/
theorem accepted_eq (s : State) (i : Instr) : s.accepted i = { s with contracts := (s.accepted i).contracts } := by
  unfold State.accepted
  cases i <;> rfl

/-- A flag set before is set after. -/
theorem accepted_keeps (s : State) (i : Instr) :
    (s.contracts.mode = true → (s.accepted i).contracts.mode = true) ∧
      (s.contracts.column = true → (s.accepted i).contracts.column = true) ∧
      (s.contracts.endpoint = true → (s.accepted i).contracts.endpoint = true) ∧
      (s.contracts.radius = true → (s.accepted i).contracts.radius = true) ∧
      (s.accepted i).contracts.abandoned = s.contracts.abandoned := by
  unfold State.accepted
  cases i <;> simp +contextual [State.noteOperands]

/-! ## Everything a cut command can do -/

/-- The state a command is cut in when fewer than all its steps are done. -/
theorem execCut_next {i : Instr} {k : Nat} {s t : State} (h : execCut i k s = .next t) :
    (k < stepCount i s ∧ ∃ m, partialFb i k s = .ok m ∧ t = (s.cutAt i k m).blockReset) ∨
      (stepCount i s ≤ k ∧ ∃ u, exec i s = .next u ∧ t = u.blockReset) := by
  unfold execCut at h
  split at h
  · refine .inl ⟨‹_›, ?_⟩
    split at h
    · cases h; exact ⟨_, ‹_›, rfl⟩
    · cases h
  · refine .inr ⟨by omega, ?_⟩
    cases he : exec i s with
    | next u => rw [he] at h; cases h; exact ⟨u, rfl, rfl⟩
    | fault f => rw [he] at h; cases h
    | refused r => rw [he] at h; cases h

end Sys2Proof.Machine
end

