-- ==== Sys2Proof/Tests/Slice0.lean ====
section
/-! SUPPORT. Tests: ill-formed terms the check refuses, words written out from the spec's encodings, the worked
vectors of 95_test_vectors one step at a time, and a witness for the hypotheses of every obligation. -/

namespace Sys2Proof.Tests

open Sys2Proof Sys2Proof.Machine

/-! ## WellFormed: each check refuses an ill-formed term and admits the boundary (00_scope R9) -/

theorem test_wf_setCursor : (Instr.setCursor 0 32768).wf = false ∧ (Instr.setCursor 0 (-32768)).wf = true := by decide
theorem test_wf_fbSet_x : (Instr.fbSet 32768 0).wf = false ∧ (Instr.fbSet 32767 0).wf = true := by decide
theorem test_wf_fbSet_y : (Instr.fbSet 0 (-32769)).wf = false ∧ (Instr.fbSet 0 (-32768)).wf = true := by decide
theorem test_wf_fbSetChecked_x : (Instr.fbSetChecked (-32769) 0).wf = false := by decide
theorem test_wf_fbSetChecked_y : (Instr.fbSetChecked 0 32768).wf = false := by decide
theorem test_wf_line_x0 : (Instr.line 32768 0 0 0).wf = false := by decide
theorem test_wf_line_y0 : (Instr.line 0 32768 0 0).wf = false := by decide
theorem test_wf_line_x1 : (Instr.line 0 0 (-32769) 0).wf = false := by decide
theorem test_wf_line_y1 : (Instr.line 0 0 0 (-32769)).wf = false := by decide
theorem test_wf_circle_cx : (Instr.circle 32768 0 0).wf = false := by decide
theorem test_wf_circle_cy : (Instr.circle 0 (-32769) 0).wf = false := by decide
theorem test_wf_circle_radius : (Instr.circle 0 0 32768).wf = false := by decide

/-! ## Decoding: words written out from 30_encoding sections 1 to 3 and 95_test_vectors part 3 -/

theorem test_decode_sendInstr : decode (.command 0x10AB30000000000000) = .ok (.sendInstr 0x30) := by decide
theorem test_decode_sendData : decode (.command 0x110048000000000000) = .ok (.sendData 0x48) := by decide
theorem test_decode_reset : decode (.command 0x200000000000000000) = .ok .reset := by decide
theorem test_decode_reset_unused : decode (.command 0x20FFFFFFFFFFFFFFFF) = .ok .reset := by decide
theorem test_decode_clearText : decode (.command 0x210000000000000000) = .ok .clearText := by decide
theorem test_decode_enterGraphics : decode (.command 0x220000000000000000) = .ok .enterGraphics := by decide
theorem test_decode_setCursor : decode (.command 0x230003000700000000) = .ok (.setCursor 3 7) := by decide
theorem test_decode_fbClear : decode (.command 0x300000000000000000) = .ok .fbClear := by decide
theorem test_decode_fbSet : decode (.command 0x31007F003F00000000) = .ok (.fbSet 127 63) := by decide
theorem test_decode_fbSet_neg : decode (.command 0x31FFFF000000000000) = .ok (.fbSet (-1) 0) := by decide
theorem test_decode_fbSetChecked : decode (.command 0x320080000A00000000) = .ok (.fbSetChecked 128 10) := by decide
theorem test_decode_line : decode (.command 0x400001000280007FFF) = .ok (.line 1 2 (-32768) 32767) := by decide
theorem test_decode_circle : decode (.command 0x41FFFB002000050000) = .ok (.circle (-5) 32 5) := by decide
theorem test_decode_refresh : decode (.command 0x500000000000000000) = .ok .refresh := by decide
theorem test_decode_frameInstr : decode (.frame 0b111110001001000011110000) = .ok (.frameInstr 0x9 0xF) := by decide
theorem test_decode_frameData : decode (.frame 0b111110100101000010100000) = .ok (.frameData 0x5 0xA) := by decide
theorem test_decode_frame_low_bits : decode (.frame 0xF83100) = .error (.malformedFrame 0xF83100) := by decide
theorem test_decode_frame_sync : decode (.frame 0xF93000) = .error (.malformedFrame 0xF93000) := by decide
theorem test_decode_lcdFuncBasic : decode (.lcd .plain 0b00110000) = .ok .lcdFuncBasic := by decide
theorem test_decode_lcdDisplayOn : decode (.lcd .plain 0b00001100) = .ok .lcdDisplayOn := by decide
theorem test_decode_lcdClear : decode (.lcd .plain 0b00000001) = .ok .lcdClear := by decide
theorem test_decode_lcdEntryMode : decode (.lcd .plain 0b00000110) = .ok .lcdEntryMode := by decide
theorem test_decode_lcdFuncExt : decode (.lcd .plain 0b00110100) = .ok .lcdFuncExt := by decide
theorem test_decode_lcdFuncExtGfx : decode (.lcd .plain 0b00110110) = .ok .lcdFuncExtGfx := by decide
theorem test_decode_lcdCursorAddr : decode (.lcd .plain 0b10010101) = .ok (.lcdCursorAddr 1 0 5) := by decide
theorem test_decode_lcdRowSelect : decode (.lcd .rowSlot 0b10010101) = .ok (.lcdRowSelect 21) := by decide
theorem test_decode_lcdBankSelect : decode (.lcd .bankSlot 0b10001000) = .ok (.lcdBankSelect 1) := by decide
theorem test_decode_lcd_unknown : decode (.lcd .plain 0x38) = .error (.unknownLcdByte .plain 0x38) := by decide
theorem test_decode_reserved :
    decode (.command 0) = .error (.reservedOpcode 0) ∧
      decode (.command 0x24FFFF000000000000) = .error (.reservedOpcode 0x24) := by decide
/-- A row's word as the table numbers it, through the interface's function. -/
theorem test_decodeTableWord : decodeTableWord 72 0x4000000000000A0000 = some (.line 0 0 10 0) ∧
    decodeTableWord 24 0xFA50A0 = some (.frameData 5 10) ∧ decodeTableWord 8 0x0C = some .lcdDisplayOn ∧
    decodeTableWord 8 0x88 = some (.lcdBankSelect 1) ∧ decodeTableWord 8 0x9F = some (.lcdCursorAddr 1 1 7) := by
  decide

/-! ## One step each, expected results from 95_test_vectors -/

/-- The machine after reset, in mode `m`, with the listed bytes of `FB`. -/
def at_ (m : Mode) (fb : Memory) : State := { State.reset with mode := m, fb := fb }

/-- Zero bytes at the listed indexes. -/
def zeros (is : List Nat) : Memory := is.map fun i => (i, 0)

/-- A completed run's trace. -/
def traceOf (o : Host.Outcome State Fault Refusal) : Option (List Event) :=
  match o with
  | .next t => some t.trace
  | .fault _ => none
  | .refused _ => none

/-- A completed run's framebuffer. -/
def fbOf (o : Host.Outcome State Fault Refusal) : Option Memory :=
  match o with
  | .next t => some t.fb
  | .fault _ => none
  | .refused _ => none

/-- A completed run's mode, reset line and record of the mode contract. -/
def modeOf (o : Host.Outcome State Fault Refusal) : Option (Mode × Bool × Bool) :=
  match o with
  | .next t => some (t.mode, t.rstLine, t.contracts.mode)
  | .fault _ => none
  | .refused _ => none

/-- The fault a run stops with, if it stops with one. -/
def faultOf (o : Host.Outcome State Fault Refusal) : Option Fault :=
  match o with
  | .next _ => none
  | .fault f => some f
  | .refused _ => none

/-- D-T1. -/
theorem test_sendInstr : traceOf (step ((at_ .text []).withFetchWord 72 0x10AB30000000000000)) =
    some [.byte 0xF8, .byte 0x30, .byte 0x00, .hold .settle] := by decide
/-- D-T16. -/
theorem test_sendData : traceOf (exec (.sendData 0xA5) (at_ .text [])) =
    some [.byte 0xFA, .byte 0xA0, .byte 0x50, .hold .settle] := by decide
/-- D-T9 as a wire frame. -/
theorem test_frameInstr : traceOf (exec (.frameInstr 0x9 0xF) (at_ .text [])) =
    some [.byte 0xF8, .byte 0x90, .byte 0xF0, .hold .settle] := by decide
/-- D-T15 as a wire frame. -/
theorem test_frameData : traceOf (exec (.frameData 0x5 0xA) (at_ .text [])) =
    some [.byte 0xFA, .byte 0x50, .byte 0xA0, .hold .settle] := by decide
/-- D-M1: the trace of RESET, event by event. -/
theorem test_reset_trace : traceOf (exec .reset State.reset) =
    some [.rst false, .hold .rstLow, .rst true, .hold .rstHigh,
      .byte 0xF8, .byte 0x30, .byte 0x00, .hold .settle,
      .byte 0xF8, .byte 0x30, .byte 0x00, .hold .settle,
      .byte 0xF8, .byte 0x00, .byte 0xC0, .hold .settle,
      .byte 0xF8, .byte 0x00, .byte 0x10, .hold .settle, .hold .clear,
      .byte 0xF8, .byte 0x00, .byte 0x60, .hold .settle] := by decide
/-- D-M1, D-M2. -/
theorem test_reset_mode : modeOf (exec .reset State.reset) = some (.text, true, false) ∧
    modeOf (exec .reset (at_ .graphics [])) = some (.text, true, false) := by decide
/-- D-M3. -/
theorem test_clearText : traceOf (exec .clearText (at_ .text [])) =
    some [.byte 0xF8, .byte 0x00, .byte 0x10, .hold .settle, .hold .clear] := by decide
/-- D-M4. -/
theorem test_enterGraphics_trace : traceOf (exec .enterGraphics (at_ .text [])) =
    some [.byte 0xF8, .byte 0x30, .byte 0x40, .hold .settle,
      .byte 0xF8, .byte 0x30, .byte 0x60, .hold .settle] := by decide
/-- D-M4, D-M8. -/
theorem test_enterGraphics_mode : modeOf (exec .enterGraphics (at_ .text [])) = some (.graphics, false, false) ∧
    modeOf (exec .enterGraphics (at_ .uninitialized [])) = some (.graphics, false, true) := by decide
/-- S4 to S7 and D-M6. -/
theorem test_setCursor_addresses : cursorAddr 0x80 2 0 = 0x88 ∧ cursorAddr 0x80 1 0 = 0x90 ∧
    cursorAddr 0x80 3 0 = 0x98 ∧ cursorAddr 0x80 0 5 = 0x85 ∧ cursorAddr 0x80 6 1 = 0x89 := by decide
/-- D-M7. -/
theorem test_setCursor_out_of_contract : cursorAddr 0x80 2 8 = 0x90 ∧ cursorAddr 0x80 3 127 = 0x17 ∧
    cursorAddr 0x80 0 (-1) = 0x7F := by decide
/-- D-M5: (3,7). -/
theorem test_setCursor_trace : traceOf (exec (.setCursor 3 7) (at_ .text [])) =
    some [.byte 0xF8, .byte 0x90, .byte 0xF0, .hold .settle] := by decide
/-- D-F15. -/
theorem test_fbClear : ∃ m, exec .fbClear State.reset = .next { State.reset with fb := m } ∧
    m.read 0 = 0 ∧ m.read 1023 = 0 := by
  have h0 := read_zeroed (i := 0) (by decide)
  have h1 := read_zeroed (i := 1023) (by decide)
  refine ⟨Memory.zeroed, ?_, h0, h1⟩
  simp only [exec, execFbClear]
/-- D-F5, D-F4. -/
theorem test_fbSet : fbOf (exec (.fbSet 69 32) (at_ .graphics (zeros [520]))) = some [(520, 0x04)] ∧
    fbOf (exec (.fbSet 127 63) (at_ .graphics (zeros [1023]))) = some [(1023, 0x01)] := by decide
/-- D-F14. -/
theorem test_fbSet_offScreen :
    faultOf (exec (.fbSet 128 0) (at_ .graphics [])) = some (.setOffScreen 128 0) := by decide
/-- D-F12. -/
theorem test_fbSetChecked : fbOf (exec (.fbSetChecked 127 10) (at_ .graphics (zeros [175]))) =
    some [(175, 0x01)] := by decide
/-- D-F13. -/
theorem test_fbSetChecked_offScreen : fbOf (exec (.fbSetChecked 128 10) (at_ .graphics (zeros [16]))) =
    some (zeros [16]) ∧ fbOf (exec (.fbSetChecked 0 (-1)) (at_ .graphics [])) = some [] := by decide
/-- D-L7. -/
theorem test_line_steep : fbOf (exec (.line 0 0 3 5) (at_ .graphics (zeros [0, 16, 32, 48, 64]))) =
    some [(0, 0x80), (16, 0x40), (32, 0x40), (48, 0x20), (64, 0x20)] := by decide
/-- D-L11, given from its other end. -/
theorem test_line_tie : fbOf (exec (.line 7 2 0 0) (at_ .graphics (zeros [0, 16, 32]))) =
    some [(0, 0xC0), (16, 0x3C), (32, 0x02)] := by decide
/-- D-C8. -/
theorem test_circle_clipped : fbOf (exec (.circle 0 0 3) (at_ .graphics (zeros [0, 16, 32, 48]))) =
    some [(0, 0x10), (16, 0x10), (32, 0x20), (48, 0xC0)] := by decide
/-- D-C7: the pixel (60, 28) is lit under variant A, and (59, 28) under variant B. -/
theorem test_circle_variants :
    (60, 28) ∈ circlePoints .variantA 6 (circleStart 64 32 6 Work.reset) ++
      plot4 64 32 (circleAfter .variantA 6 (circleStart 64 32 6 Work.reset)).x
        (circleAfter .variantA 6 (circleStart 64 32 6 Work.reset)).y ∧
    (59, 28) ∈ circlePoints .variantB 6 (circleStart 64 32 6 Work.reset) ∧
    (circleAfter .variantA 6 (circleStart 64 32 6 Work.reset)).e = -8 ∧
    (circleAfter .variantB 6 (circleStart 64 32 6 Work.reset)).e = -1 := by decide
/-- D-R1, D-R4: the frames that open row 37, on a framebuffer with `FB[592] = 0xE3`. -/
theorem test_refresh_row : ((refreshRowActs Config.default [(592, 0xE3)] 37).filterMap Act.event).take 12 =
    [.byte 0xF8, .byte 0x80, .byte 0x50, .hold .settle, .byte 0xF8, .byte 0x80, .byte 0x80, .hold .settle,
      .byte 0xFA, .byte 0xE0, .byte 0x30, .hold .settle] := by decide
/-- D-T3. -/
theorem test_lcdClear : traceOf (exec .lcdClear (at_ .text [])) =
    some [.byte 0xF8, .byte 0x00, .byte 0x10, .hold .settle] := by decide
/-- D-T1. -/
theorem test_lcdFuncBasic : traceOf (exec .lcdFuncBasic (at_ .text [])) =
    some [.byte 0xF8, .byte 0x30, .byte 0x00, .hold .settle] := by decide
/-- D-T2. -/
theorem test_lcdDisplayOn : traceOf (exec .lcdDisplayOn (at_ .text [])) =
    some [.byte 0xF8, .byte 0x00, .byte 0xC0, .hold .settle] := by decide
/-- D-T4. -/
theorem test_lcdEntryMode : traceOf (exec .lcdEntryMode (at_ .text [])) =
    some [.byte 0xF8, .byte 0x00, .byte 0x60, .hold .settle] := by decide
/-- D-T5. -/
theorem test_lcdFuncExt : traceOf (exec .lcdFuncExt (at_ .text [])) =
    some [.byte 0xF8, .byte 0x30, .byte 0x40, .hold .settle] := by decide
/-- D-T6. -/
theorem test_lcdFuncExtGfx : traceOf (exec .lcdFuncExtGfx (at_ .text [])) =
    some [.byte 0xF8, .byte 0x30, .byte 0x60, .hold .settle] := by decide
/-- D-M5: (2,3). -/
theorem test_lcdCursorAddr : traceOf (exec (.lcdCursorAddr 0 1 3) (at_ .text [])) =
    some [.byte 0xF8, .byte 0x80, .byte 0xB0, .hold .settle] := by decide
/-- D-R1: row 27. -/
theorem test_lcdRowSelect : traceOf (exec (.lcdRowSelect 27) (at_ .graphics [])) =
    some [.byte 0xF8, .byte 0x90, .byte 0xB0, .hold .settle] := by decide
/-- D-R1: rows 32 to 63. -/
theorem test_lcdBankSelect : traceOf (exec (.lcdBankSelect 1) (at_ .graphics [])) =
    some [.byte 0xF8, .byte 0x80, .byte 0x80, .hold .settle] := by decide

/-! ## `rst_n` inside a command (70_reset R231), on the traces and bytes above -/

/-- The reset line after a step. -/
def lineOf (o : Host.Outcome State Fault Refusal) : Option Bool :=
  match o with
  | .next t => some t.rstLine
  | .fault _ => none
  | .refused _ => none

/-- The idle machine with `FB` as listed, whose next word is `w`, cut after `k` steps. -/
def cutting (w : CmdWord) (k : Nat) (fb : Memory) : State :=
  { at_ .text fb with inputs := [.wordCut w k], rstLine := true }

/-- RESET cut after its first hold: the line stays low. -/
theorem test_cut_reset_hold :
    traceOf (step (cutting 0x200000000000000000 2 [])) = some [.rst false, .hold .rstLow] ∧
      lineOf (step (cutting 0x200000000000000000 2 [])) = some false := by decide
/-- RESET cut inside its first hold: the trace ends at `RST(0)`, the line stays low, `MODE` is Uninitialized. -/
theorem test_cut_reset_line :
    traceOf (step (cutting 0x200000000000000000 1 [])) = some [.rst false] ∧
      modeOf (step (cutting 0x200000000000000000 1 [])) = some (.uninitialized, false, false) := by decide
/-- SEND_DATA 0x41 cut inside its frame, after two of three bytes. -/
theorem test_cut_sendData :
    traceOf (step (cutting 0x110041000000000000 3 [])) = some [.byte 0xFA, .byte 0x40] := by decide
/-- FB_CLEAR cut after one byte. -/
theorem test_cut_fbClear : fbOf (step (cutting 0x300000000000000000 1 [(0, 0xFF), (1, 0xFF)])) =
    some [(0, 0), (1, 0xFF)] := by decide
/-- D-L7's line cut after its first two points. -/
theorem test_cut_line : fbOf (step (cutting 0x400000000000030005 2 (zeros [0, 16, 32]))) =
    some [(0, 0x80), (16, 0x40), (32, 0)] := by decide
/-- D-C8's circle cut after its first point. -/
theorem test_cut_circle : fbOf (step (cutting 0x410000000000030000 1 (zeros [0, 16]))) =
    some [(0, 0x10), (16, 0)] := by decide

/-! ## Witnesses: a state and operands that meet the hypotheses of each obligation -/

/-- A state whose bus completes exactly `n` more transfers. -/
def busOf (n : Nat) : State := { State.reset with bus := some n }

/-- SEND_DATA 0x41 waiting at its second byte. -/
def waiting : State :=
  { State.reset with
    seq := .busy (.sendData 0x41) 2
    inFlight := some 0x40
    trace := [.byte 0xFA]
    bus := some 0
    inputs := [.word 0x110042000000000000] }

/-- A framebuffer that reads zero everywhere on the screen. -/
theorem zeroed_blank : blank Memory.zeroed := by
  intro x y h
  rw [fbGet_eq, read_zeroed (pixelIndex_lt h)]
  simp

theorem witness_DecodeUndoesEncode :
    (Instr.line (-32768) 32767 0 (-1)).wf = true ∧ (Instr.setCursor 0xFFFF 32767).wf = true ∧
      (Instr.lcdRowSelect 31).wf = true := by decide
theorem witness_DecodedInstructionsAreWellFormed :
    decode (.command 0x4080007FFF0000FFFF) = .ok (.line (-32768) 32767 0 (-1)) := by decide
theorem witness_StepRunsTheDecodedInstruction :
    decode (.command 0x200000000000000000) = .ok .reset ∧
      decode (.command 0x000000000000000000) = .error (.reservedOpcode 0) ∧
      (cutting 0x000000000000000000 5 []).inputs = .wordCut 0x000000000000000000 5 :: [] ∧
      State.reset.seq = .idle ∧ State.reset.inputs = [] ∧
      ({ State.reset with inputs := [.word 0x200000000000000000] } : State).inputs =
        present (.command 0x200000000000000000) :: [] ∧
      decodeTableWord 72 0x500000000000000000 = some .refresh := by decide
theorem witness_ReservedOpcodesAreRefused :
    (0xFF0000000000000000 : CmdWord).extractLsb' 64 8 ∉
      ([0x10, 0x11, 0x20, 0x21, 0x22, 0x23, 0x30, 0x31, 0x32, 0x40, 0x41, 0x50] : List Byte) ∧
    (0x0F0000000000000000 : CmdWord).extractLsb' 64 8 ∉
      ([0x10, 0x11, 0x20, 0x21, 0x22, 0x23, 0x30, 0x31, 0x32, 0x40, 0x41, 0x50] : List Byte) := by decide
theorem witness_SendInstrSendsOneInstructionFrame : (busOf 3).busAllows 3 = true := by decide
theorem witness_SendDataSendsOneDataFrame : (busOf 3).busAllows 3 = true := by decide
theorem witness_FrameRowsEmitTheirFrame : (busOf 3).busAllows 3 = true := by decide
theorem witness_LcdRowsSendTheirParameter : (busOf 3).busAllows 3 = true := by decide
theorem witness_LcdRowsSendTheirOwnEncoding :
    encode (.lcdCursorAddr 1 1 7) = .lcd .plain 0x9F ∧ (busOf 3).cfg = Config.default ∧
      (busOf 3).busAllows 3 = true := by decide
theorem witness_FramesReadBack :
    ((0xFA : Byte) = 0xF8 ∨ (0xFA : Byte) = 0xFA) ∧ frameEvents 0xFA 0x5A = frameEvents 0xFA 0x5A := by decide
theorem witness_CompletedCommandsEmitWholeFrames :
    ∃ t, State.reset.seq = .idle ∧ exec .reset State.reset = .next t ∧ t.seq = .idle := ⟨_, rfl, rfl, rfl⟩
theorem witness_CompletedCommandsEmitWholeFrames_plain :
    ∃ t, State.reset.seq = .idle ∧ exec .enterGraphics State.reset = .next t ∧ t.seq = .idle :=
  ⟨_, rfl, rfl, rfl⟩
theorem witness_SendStringStreamsItsBytes :
    (busOf 6).seq = .idle ∧ (busOf 6).inFlight = none ∧ (busOf 6).busAllows (3 * [0x48#8, 0x69#8].length) = true := by
  decide
theorem witness_ResetEmitsItsSequence :
    (busOf 15).busAllows 15 = true ∧ (busOf 14).busAllows 15 = false := by decide
theorem witness_ClearTextSendsFrameAndHold : (busOf 3).busAllows 3 = true := by decide
theorem witness_EnterGraphicsSendsTwoFrames : (busOf 6).busAllows 6 = true := by decide
theorem witness_SetCursorSendsItsAddress :
    (busOf 3).cfg.opCursorBase = 0x80 ∧ (busOf 3).busAllows 3 = true := by decide
theorem witness_OnlyResetAndEnterGraphicsWriteMode :
    ∃ t, exec .enterGraphics (at_ .text []) = .next t ∧ t.mode = .graphics := ⟨_, rfl, rfl⟩
theorem witness_UninitializedOnlyByResetPin :
    ∃ t, step { at_ .text [] with inputs := [.resetPin] } = .next t ∧ (at_ .text []).mode ≠ .uninitialized ∧
      t.mode = .uninitialized := ⟨_, rfl, by decide, rfl⟩
/-- The same inside a command. -/
theorem witness_UninitializedOnlyByResetPin_cut :
    ∃ t, step (cutting 0x200000000000000000 1 []) = .next t ∧
      (cutting 0x200000000000000000 1 []).mode ≠ .uninitialized ∧ t.mode = .uninitialized :=
  ⟨_, rfl, by decide, rfl⟩
theorem witness_ModeContractIsRecorded :
    ∃ t, exec .clearText (at_ .graphics []) = .next t ∧ t.contracts.mode = true := ⟨_, rfl, rfl⟩
theorem witness_ContractFaultsAreSticky :
    ∃ t, step { State.reset with contracts := ⟨true, true, true, true, true⟩ } = .next t := ⟨_, rfl⟩
theorem witness_FbSetOrsOneBit : (0 : Int) ≤ 127 ∧ (127 : Int) < 128 ∧ (0 : Int) ≤ 63 ∧ (63 : Int) < 64 := by decide
theorem witness_FbSetOffScreenFaults : (128 : Int) < 0 ∨ (128 : Int) ≤ 128 ∨ (0 : Int) < 0 ∨ (64 : Int) ≤ 0 := by
  decide
theorem witness_FbSetCheckedSetsOrIgnores :
    ((0 : Int) ≤ 0 ∧ (0 : Int) < 128 ∧ (0 : Int) ≤ 63 ∧ (63 : Int) < 64) ∧
      ((-1 : Int) < 0 ∨ (128 : Int) ≤ -1 ∨ (0 : Int) < 0 ∨ (64 : Int) ≤ 0) ∧
      ((0 : Int) < 0 ∨ (128 : Int) ≤ 0 ∨ (64 : Int) < 0 ∨ (64 : Int) ≤ 64) := by decide
theorem witness_FbClearZeroesAllBytes :
    State.reset.fb.wf = true ∧ (List.range 1024).Perm (List.range 1024) ∧ (1023 : Nat) < 1024 :=
  ⟨by decide, List.Perm.refl _, by decide⟩
theorem witness_ClearThenSetLightsOneBit :
    ((0 : Int) ≤ 127 ∧ (127 : Int) < 128 ∧ (0 : Int) ≤ 63 ∧ (63 : Int) < 64) ∧
      ((0 : Int) < 0 ∨ (128 : Int) ≤ 0 ∨ (-1 : Int) < 0 ∨ (64 : Int) ≤ -1) := by decide
theorem witness_PixelAddressIsABijection :
    onScreen 127 63 = true ∧ onScreen 0 0 = true ∧ pixelIndex 127 63 = 1023 ∧ pixelMask 127 = 1#8 <<< 0 := by decide
theorem witness_FbSetLightsItsPixelOnly :
    ∃ t, onScreen 127 63 = true ∧ onScreen 0 0 = true ∧ exec (.fbSet 127 63) State.reset = .next t :=
  ⟨_, by decide, by decide, rfl⟩
theorem witness_OnlyFbClearClearsBits :
    ∃ t, exec (.fbSet 0 0) State.reset = .next t ∧ (Instr.fbSet 0 0) ≠ .fbClear := ⟨_, rfl, by decide⟩
theorem witness_OnlyDrawingWritesFramebuffer :
    ∃ t, exec (.fbSet 0 0) (at_ .text (zeros [0])) = .next t ∧ t.fb ≠ (at_ .text (zeros [0])).fb :=
  ⟨_, rfl, by decide⟩
theorem witness_LineCompletesOnScreen : onScreen 0 63 = true ∧ onScreen 127 0 = true := by decide
theorem witness_ShallowLineClosedForm :
    onScreen 0 63 = true ∧ onScreen 63 0 = true ∧ (0 : Int) < 63 ∧ |(0 : Int) - 63| ≤ 63 - 0 := by decide
theorem witness_SteepLineClosedForm :
    onScreen 1 0 = true ∧ onScreen 0 2 = true ∧ (0 : Int) < 2 ∧ |(0 : Int) - 1| < 2 - 0 := by decide
theorem witness_LineLoopInvariant :
    (Instr.line (-3) 0 2 (-1)).wf = true ∧ 4 < lineCount (lineStart (-3) 0 2 (-1) Work.reset) := by decide
theorem witness_LinePointsBoundTheirFaults :
    (∀ p ∈ lineDrawn 0 0 3 5 Work.reset, onScreen p.1 p.2 = true) ∧
    (∀ p ∈ lineDrawn 126 0 128 0 Work.reset, onScreen p.1 p.2 = true) ∧ onScreen 128 0 = false ∧
    faultOf (exec (.line 126 0 130 0) (at_ .graphics (zeros [15]))) = some (.lineOffScreen 128 0) := by decide
theorem witness_CircleIncludesItsAxisPoints :
    ∃ t, (1 : Int) ≤ 1 ∧ exec (.circle 127 0 1) State.reset = .next t ∧ onScreen (127 - 1) 0 = true ∧
      onScreen 127 (0 + 1) = true := ⟨_, by decide, rfl, by decide, by decide⟩
/-- The other two clauses at the opposite corner. -/
theorem witness_CircleIncludesItsAxisPoints_corner :
    ∃ t, (1 : Int) ≤ 1 ∧ exec (.circle 0 63 1) State.reset = .next t ∧ onScreen (0 + 1) 63 = true ∧
      onScreen 0 (63 - 1) = true := ⟨_, by decide, rfl, by decide, by decide⟩
theorem witness_CirclePixelsLieNearTheCircle :
    ∃ s t : State, (0 : Int) ≤ 0 ∧ blank s.fb ∧ exec (.circle 64 32 0) s = .next t ∧
      onScreen 64 32 = true ∧ fbGet t.fb 64 32 = true := by
  have hb := zeroed_blank
  generalize Memory.zeroed = m at hb
  refine ⟨{ State.reset with fb := m }, _, by decide, hb, rfl, by decide, ?_⟩
  rw [fbGet_plotVisible _ _ (by decide)]
  simp [circleDrawn, circlePoints, circleAfter, circleStart, plot4]
theorem witness_CircleIsEightfoldSymmetric :
    ∃ s t : State, (0 : Int) ≤ 2 ∧ blank s.fb ∧ exec (.circle 64 32 2) s = .next t ∧
      onScreen (64 + 2) (32 + 1) = true ∧ fbGet t.fb (64 + 2) (32 + 1) = true := by
  have hb := zeroed_blank
  generalize Memory.zeroed = m at hb
  refine ⟨{ State.reset with fb := m }, _, by decide, hb, rfl, by decide, ?_⟩
  rw [fbGet_plotVisible _ _ (by decide)]
  have h : ((64 + 2, 32 + 1) : Int × Int) ∈ circlePoints .variantA 2 (circleStart 64 32 2 Work.reset) := by decide
  rw [Bool.or_eq_true]
  exact .inr (decide_eq_true (List.mem_append_left _ h))
/-- A corner where two of the images are off the screen and their common image (124, 0) is on it. -/
theorem witness_CircleIsEightfoldSymmetric_corner :
    ∃ s t : State, (0 : Int) ≤ 3 ∧ blank s.fb ∧ exec (.circle 127 0 3) s = .next t ∧
      onScreen (127 + 0) (0 + 3) = true ∧ fbGet t.fb (127 + 0) (0 + 3) = true ∧
      onScreen (127 - 3) (0 - 0) = true ∧ onScreen (127 + 3) (0 + 0) = false ∧ onScreen (127 + 0) (0 - 3) = false := by
  have hb := zeroed_blank
  generalize Memory.zeroed = m at hb
  refine ⟨{ State.reset with fb := m }, _, by decide, hb, rfl, by decide, ?_, by decide, by decide, by decide⟩
  rw [fbGet_plotVisible _ _ (by decide)]
  have h : ((127 + 0, 0 + 3) : Int × Int) ∈ circleDrawn .variantA 127 0 3 Work.reset := by decide
  rw [Bool.or_eq_true]
  exact .inr (decide_eq_true h)
theorem witness_CircleLoopEnds :
    ∃ t, (Instr.circle 0 0 1).wf = true ∧ (0 : Int) ≤ 1 ∧ exec (.circle 0 0 1) State.reset = .next t :=
  ⟨_, by decide, by decide, rfl⟩
theorem witness_NegativeRadiusLightsTwoPoints : (-1 : Int) < 0 ∧ onScreen (64 - 1) 32 = true := by decide
theorem witness_RefreshSendsItsFrames :
    (busOf 3456).busAllows 3456 = true ∧ (63 : Nat) < 64 ∧ (15 : Nat) < 16 := by decide
theorem witness_RefreshSendsEveryByteOnce :
    ∃ t, State.reset.busAllows 3456 = true ∧ exec .refresh State.reset = .next t := ⟨_, rfl, rfl⟩
theorem witness_HungCommandLeavesAPrefix :
    ∃ t, (busOf 1).seq = .idle ∧ exec (.sendData 0x41) (busOf 1) = .next t ∧ t.seq ≠ .idle :=
  ⟨_, rfl, rfl, by decide⟩
theorem witness_HungCommandLeavesAPrefix_reset :
    ∃ t, (busOf 1).seq = .idle ∧ exec .reset (busOf 1) = .next t ∧ t.seq ≠ .idle := ⟨_, rfl, rfl, by decide⟩
theorem witness_WaitingBlockStays :
    waiting.seqOk = true ∧ waiting.seq ≠ .idle ∧ ∀ i ∈ waiting.inputs, i.carried.isSome = true :=
  ⟨by decide, by decide, by decide⟩
theorem witness_WaitingChangesNothing :
    ∃ t, State.reset.seq = .idle ∧ exec (.sendData 0x41) { State.reset with bus := some 1 } = .next t ∧
      t.seq = .busy (.sendData 0x41) 2 := ⟨_, rfl, rfl, by decide⟩
theorem witness_BusyBlockAcceptsNoWord : ∃ t, waiting.seq ≠ .idle ∧ step waiting = .next t := ⟨_, by decide, rfl⟩
theorem witness_ResetPinRestoresPowerOn :
    ({ waiting with inputs := [.resetPin] } : State).inputs = .resetPin :: [] ∧
      ({ busOf 1 with inputs := [.readyCut 2 0] } : State).inputs = .readyCut 2 0 :: [] ∧
      (busOf 1).seq = .idle := ⟨rfl, rfl, rfl⟩
/-- Inside RESET, on a bus that completes nothing and on one that completes all. -/
theorem witness_ResetPinRestoresPowerOn_command :
    ∃ u, ({ busOf 0 with inputs := [.wordCut 0x200000000000000000 3] } : State).inputs =
        .wordCut 0x200000000000000000 3 :: [] ∧ decode (.command 0x200000000000000000) = .ok .reset ∧
      State.reset.bus = none ∧ exec .reset { State.reset with bus := none } = .next u ∧
      (State.reset.trace ++ [.rst false]) <+: u.trace := ⟨_, rfl, by decide, rfl, rfl, _, rfl⟩
/-- Inside the drawing commands, at the first and the last step. -/
theorem witness_ResetPinRestoresPowerOn_drawing :
    (cutting 0x300000000000000000 0 []).seq = .idle ∧ decode (.command 0x300000000000000000) = .ok .fbClear ∧
      decode (.command 0x4000000000000A0000) = .ok (.line 0 0 10 0) ∧
      (∀ p ∈ (lineDrawn 0 0 10 0 Work.reset).take 10, onScreen p.1 p.2 = true) ∧
      decode (.command 0x410000000000030000) = .ok (.circle 0 0 3) := by decide
theorem witness_ResetPinRestoresPowerOn_waiting :
    ({ waiting with inputs := [.readyCut 1 1] } : State).seq = .busy (.sendData 0x41) 2 ∧
      ({ waiting with inputs := [.readyCut 1 1] } : State).bus = some 0 ∧
      traceOf (step { waiting with inputs := [.readyCut 1 1] }) = some [.byte 0xFA, .byte 0x40] := by decide
theorem witness_ParametersNeverChange : ∃ t, step waiting = .next t := ⟨_, rfl⟩
theorem witness_StepKeepsInvariant : ∃ t, waiting.Inv ∧ step waiting = .next t :=
  ⟨_, ⟨by decide, by decide, by decide, by decide⟩, rfl⟩

end Sys2Proof.Tests
end

section
/-! Bus Transport: a command word of SEND_INSTR or SEND_DATA decodes to it, and an instruction whose program is one
`Frame` leaves `afterFrame` when the bus completes its three transfers (40_bus R110 to R113). -/

namespace Sys2Proof

/-- Opcode 0x10 selects SEND_INSTR, field A's low byte its operand (30_encoding R93, R95). -/
theorem decode_commandWord_sendInstr (a b c d : Field) :
    decode (.command (commandWord 0x10 a b c d)) = .ok (.sendInstr (a.setWidth 8)) := by
  simp [decode, decodeCommand, lowByte_eq]

/-- Opcode 0x11 selects SEND_DATA, field A's low byte its operand (30_encoding R93, R95). -/
theorem decode_commandWord_sendData (a b c d : Field) :
    decode (.command (commandWord 0x11 a b c d)) = .ok (.sendData (a.setWidth 8)) := by
  simp [decode, decodeCommand, lowByte_eq]

end Sys2Proof

namespace Sys2Proof.Machine

/-- A program of one `Frame` that the bus lets through ends idle after that frame (40_bus R110, 10_state R36). -/
theorem proceed_frameActs {s : State} (h : s.busAllows 3 = true) (op : Instr) (n : Nat) (sync v : Byte) :
    s.proceed op n (frameActs sync v) = s.afterFrame sync v := by
  have hb : s.busAllows (transfers (frameActs sync v)) = true := by rwa [transfers_frameActs]
  rw [proceed_complete hb, runActs_frameActs]
  rfl

/-- A bus instruction without a contract (`noted` records nothing) whose program is one `Frame` sends that frame. -/
theorem exec_eq_afterFrame {i : Instr} {s : State} {sync v : Byte} (hu : usesBus i = true)
    (hn : noted i s = s) (hp : program i s.cfg s.fb = frameActs sync v) (h : s.busAllows 3 = true) :
    exec i s = .next (s.afterFrame sync v) := by
  rw [exec_bus hu, hn, hp, proceed_frameActs h]

/-- Settles O7: the word is `commandWord 0x10`, and SEND_INSTR's program is one frame with the sync byte 0xF8. -/
theorem sendInstrSendsOneInstructionFrame : Obligations.SendInstrSendsOneInstructionFrame := by
  unfold Obligations.SendInstrSendsOneInstructionFrame
  exact ⟨decode_commandWord_sendInstr, fun _ _ h => exec_eq_afterFrame rfl rfl rfl h⟩

/-- Settles O8: the word is `commandWord 0x11`, and SEND_DATA's program is one frame with the sync byte 0xFA. -/
theorem sendDataSendsOneDataFrame : Obligations.SendDataSendsOneDataFrame := by
  unfold Obligations.SendDataSendsOneDataFrame
  exact ⟨decode_commandWord_sendData, fun _ _ h => exec_eq_afterFrame rfl rfl rfl h⟩

end Sys2Proof.Machine
end

section
/-! Mode & Reset Controller: what RESET's steps do when all of them complete, and `MODE` under every instruction,
which no step before a command's last transfer writes (41_mode R125 to R132). -/

namespace Sys2Proof

/-- Opcode 0x20 selects RESET, whatever the four fields hold (30_encoding R93, R95). -/
theorem decode_commandWord_reset (a b c d : Field) : decode (.command (commandWord 0x20 a b c d)) = .ok .reset := by
  simp [decode, decodeCommand]

end Sys2Proof

namespace Sys2Proof.Machine

/-- RESET transfers the three bytes of each of its five frames. -/
@[simp] theorem transfers_resetActs (c : Config) : transfers (resetActs c) = 15 := by
  simp [resetActs, clearTextActs, transfers_cons, Act.transfer]

/-- What a completed RESET leaves in the registers, the trace and the bus (41_mode R125). -/
theorem runActs_resetActs (c : Config) (s : State) :
    runActs (resetActs c) s =
      { s with
        trace := s.trace ++ resetEvents c
        rstLine := true
        mode := .text
        work := { s.work with fsync := 0xF8, fval := c.opEntryMode, fidx := 0 }
        bus := s.bus.map (· - 15) } := by
  rw [runActs_eq, transfers_resetActs]
  rfl

/-- The steps a command has done when it waits for a transfer have not written `MODE`. -/
theorem runActs_mode_before_transfer {op : Instr} {c : Config} {m : Memory} {pre post : List Act} {a : Act}
    (h : program op c m = pre ++ a :: post) (ha : a.transfer.isSome = true) (s : State) :
    (runActs pre s).mode = s.mode := by
  rw [runActs_mode, foldl_applyAct_mode]
  exact foldl_onMode_of_no_mode _ _ (no_mode_before_transfer h ha)

/-- RESET runs its steps as far as the bus lets it; it records no contract (60_exceptions R205). -/
theorem exec_reset (s : State) : exec .reset s = .next (s.proceed .reset 0 (resetActs s.cfg)) := exec_bus rfl s

/-- Settles O16: the bus lets RESET's fifteen transfers through and its steps end as `runActs_resetActs` says, or it
stops RESET before one of them, and so before `MODE` is written. -/
theorem resetEmitsItsSequence : Obligations.ResetEmitsItsSequence := by
  unfold Obligations.ResetEmitsItsSequence
  refine ⟨decode_commandWord_reset, fun s h => ?completes, fun s h => ?hangs⟩
  case completes =>
    have hb : s.busAllows (transfers (resetActs s.cfg)) = true := by rwa [transfers_resetActs]
    rw [exec_reset, proceed_complete hb, runActs_resetActs]
  case hangs =>
    have hb : s.busAllows (transfers (resetActs s.cfg)) = false := by rwa [transfers_resetActs]
    obtain ⟨pre, a, post, hp, ha, -, he⟩ := proceed_stalls hb .reset 0
    rw [exec_reset, he]
    have hm : (runActs pre s).mode = s.mode := runActs_mode_before_transfer (op := .reset) (m := s.fb) hp ha s
    exact ⟨_, _, rfl, rfl, hm, runActs_fb pre s⟩

/-- Settles O21: a bus instruction runs its whole program, whose writes of `MODE` are those of `program_onMode`, or
waits before one of its transfers with `MODE` not yet written; a drawing instruction has no `MODE` in its frame. -/
theorem onlyResetAndEnterGraphicsWriteMode : Obligations.OnlyResetAndEnterGraphicsWriteMode := by
  unfold Obligations.OnlyResetAndEnterGraphicsWriteMode
  intro i s t h
  cases hu : usesBus i with
  | true =>
    rw [exec_bus hu] at h
    cases h
    rcases proceed_cases (noted i s) i 0 (program i s.cfg s.fb) with ⟨-, he⟩ | ⟨pre, a, post, hp, ha, -, he⟩
    · rw [he, runActs_eq, noted_mode]
      exact program_onMode i s.cfg s.fb 0 s.mode
    · left
      rw [he]
      exact (runActs_mode_before_transfer hp ha _).trans (noted_mode i s)
  | false =>
    obtain ⟨m, w, c, rfl, -⟩ := exec_draw_frame hu h
    exact .inl rfl

end Sys2Proof.Machine
end

section
/-! Framebuffer: the one byte FB_SET and FB_SET_CHECKED write, and FB_CLEAR's 1024 writes, which leave the same memory
in whatever order they come (42_framebuffer R145 to R153). -/

namespace Sys2Proof

/-- Opcode 0x30 selects FB_CLEAR, whatever the four fields hold (30_encoding R93, R95). -/
theorem decode_commandWord_fbClear (a b c d : Field) :
    decode (.command (commandWord 0x30 a b c d)) = .ok .fbClear := by
  simp [decode, decodeCommand]

/-- Opcode 0x31 selects FB_SET, fields A and B its coordinates (30_encoding R93, R95). -/
theorem decode_commandWord_fbSet (a b c d : Field) :
    decode (.command (commandWord 0x31 a b c d)) = .ok (.fbSet a.toInt b.toInt) := by
  simp [decode, decodeCommand, sext16]

/-- Opcode 0x32 selects FB_SET_CHECKED, fields A and B its coordinates (30_encoding R93, R95). -/
theorem decode_commandWord_fbSetChecked (a b c d : Field) :
    decode (.command (commandWord 0x32 a b c d)) = .ok (.fbSetChecked a.toInt b.toInt) := by
  simp [decode, decodeCommand, sext16]

end Sys2Proof

namespace Sys2Proof.Machine

/-! ## One pixel -/

theorem onScreen_of_bounds {x y : Int} (hx0 : 0 ≤ x) (hx : x < 128) (hy0 : 0 ≤ y) (hy : y < 64) :
    onScreen x y = true :=
  onScreen_iff.2 ⟨⟨hx0, hx⟩, hy0, hy⟩

/-- Off the screen at least one of the four comparisons of R149 fails. -/
theorem onScreen_eq_false_iff {x y : Int} : onScreen x y = false ↔ x < 0 ∨ 128 ≤ x ∨ y < 0 ∨ 64 ≤ y := by
  rw [← Bool.not_eq_true, onScreen_iff]
  omega

/-- The pixel's byte gains the pixel's bit (42_framebuffer R145). -/
@[simp] theorem read_setPixel_same (m : Memory) (x y : Int) :
    (setPixel m x y).read (pixelIndex x y) = m.read (pixelIndex x y) ||| pixelMask x :=
  read_write_same ..

/-- Every byte but the pixel's stays (42_framebuffer R145). -/
@[simp] theorem read_setPixel_other (m : Memory) {x y : Int} {i : Nat} (h : i ≠ pixelIndex x y) :
    (setPixel m x y).read i = m.read i :=
  read_write_other _ _ h

theorem exec_fbSet_of_onScreen {x y : Int} (h : onScreen x y = true) (s : State) :
    exec (.fbSet x y) s = .next { s with fb := setPixel s.fb x y } :=
  if_pos h

theorem exec_fbSetChecked (x y : Int) (s : State) :
    exec (.fbSetChecked x y) s = .next { s with fb := plotChecked s.fb x y } := rfl

theorem exec_fbSetChecked_of_onScreen {x y : Int} (h : onScreen x y = true) (s : State) :
    exec (.fbSetChecked x y) s = .next { s with fb := setPixel s.fb x y } := by
  rw [exec_fbSetChecked, plotChecked, if_pos h]

theorem exec_fbSetChecked_of_offScreen {x y : Int} (h : onScreen x y = false) (s : State) :
    exec (.fbSetChecked x y) s = .next s := by
  rw [exec_fbSetChecked, plotChecked, h, if_neg Bool.false_ne_true]

/-- Settles O26: on the screen FB_SET is `setPixel`, whose only write is at `pixelIndex x y`. -/
theorem fbSetOrsOneBit : Obligations.FbSetOrsOneBit := by
  unfold Obligations.FbSetOrsOneBit
  refine ⟨decode_commandWord_fbSet, fun x y s hx0 hx hy0 hy => ?_⟩
  exact ⟨setPixel s.fb x y, exec_fbSet_of_onScreen (onScreen_of_bounds hx0 hx hy0 hy) s,
    read_setPixel_same .., fun _ hi => read_setPixel_other _ hi⟩

/-- Settles O28: on the screen FB_SET_CHECKED is `setPixel` too, and off it its setter leaves `FB` as it was. -/
theorem fbSetCheckedSetsOrIgnores : Obligations.FbSetCheckedSetsOrIgnores := by
  unfold Obligations.FbSetCheckedSetsOrIgnores
  refine ⟨decode_commandWord_fbSetChecked, fun x y s hx0 hx hy0 hy => ?_, fun x y s hoff => ?_⟩
  · exact ⟨setPixel s.fb x y, exec_fbSetChecked_of_onScreen (onScreen_of_bounds hx0 hx hy0 hy) s,
      read_setPixel_same .., fun _ hi => read_setPixel_other _ hi⟩
  · exact exec_fbSetChecked_of_offScreen (onScreen_eq_false_iff.2 hoff) s

/-! ## All 1024 bytes -/

theorem exec_fbClear (s : State) : exec .fbClear s = .next { s with fb := Memory.zeroed } := rfl

/-- The canonical form of 10_state R21 as a proposition. -/
theorem Memory.wf_iff {m : Memory} : m.wf = true ↔ Memory.rising m = true ∧ ∀ c ∈ m, c.1 < 1024 := by
  simp [Memory.wf]

/-- A byte that reads as stored stands among the listed cells. -/
theorem mem_of_stored {m : Memory} {i : Nat} {v : Byte} (h : m.stored i = some v) : (i, v) ∈ m := by
  induction m with
  | nil => cases h
  | cons c rest ih =>
    obtain ⟨j, u⟩ := c
    rw [Memory.stored] at h
    split at h
    case isTrue hij =>
      cases hij
      cases h
      exact List.mem_cons_self ..
    case isFalse => exact List.mem_cons_of_mem _ (ih h)

/-- A canonical memory stores no byte past the framebuffer's end. -/
theorem stored_eq_none {m : Memory} (hm : m.wf = true) {i : Nat} (hi : 1024 ≤ i) : m.stored i = none := by
  rw [Option.eq_none_iff_forall_ne_some]
  intro v hv
  exact absurd ((Memory.wf_iff.1 hm).2 _ (mem_of_stored hv)) (by simpa using hi)

/-- Canonical memories are decided by their 1024 bytes (`ext_of_rising` for the framebuffer's range). -/
theorem ext_of_wf {m m' : Memory} (hm : m.wf = true) (hm' : m'.wf = true)
    (h : ∀ i < 1024, m.stored i = m'.stored i) : m = m' := by
  refine ext_of_rising (Memory.wf_iff.1 hm).1 (Memory.wf_iff.1 hm').1 fun i => ?_
  rcases Nat.lt_or_ge i 1024 with hi | hi
  · exact h i hi
  · rw [stored_eq_none hm hi, stored_eq_none hm' hi]

theorem stored_zeroed {i : Nat} (hi : i < 1024) : Memory.zeroed.stored i = some 0 :=
  stored_map_zero _ i (List.mem_range.2 hi)

/-- Zeros written along a list of indexes: the bytes of the list are stored as zero, any other as before. -/
theorem stored_foldl_write_zero (order : List Nat) (m : Memory) (j : Nat) :
    (order.foldl (fun fb i => fb.write i 0) m).stored j = if j ∈ order then some 0 else m.stored j := by
  induction order generalizing m with
  | nil => simp
  | cons k rest ih =>
    rw [List.foldl_cons, ih, stored_write]
    by_cases hj : j ∈ rest <;> simp [hj]

theorem foldl_write_zero_wf {order : List Nat} (ho : ∀ i ∈ order, i < 1024) {m : Memory} (hm : m.wf = true) :
    (order.foldl (fun fb i => fb.write i 0) m).wf = true :=
  List.foldlRecOn (motive := fun fb => Memory.wf fb = true) order _ hm
    fun fb hfb i hi => write_wf fb i 0 (ho i hi) hfb

/-- Zeros written at the framebuffer's indexes, in any order, leave what FB_CLEAR leaves (42_framebuffer R150). -/
theorem foldl_write_zero_eq_zeroed {order : List Nat} (ho : ∀ i, i ∈ order ↔ i < 1024) {m : Memory}
    (hm : m.wf = true) : order.foldl (fun fb i => fb.write i 0) m = Memory.zeroed := by
  refine ext_of_wf (foldl_write_zero_wf (fun i hi => (ho i).1 hi) hm) zeroed_wf fun i hi => ?_
  rw [stored_foldl_write_zero, if_pos ((ho i).2 hi), stored_zeroed hi]

/-- Settles O29: FB_CLEAR leaves `Memory.zeroed`, and so do the 1024 writes in any order, for each of them stores
zero at its own index and the canonical form leaves one list for the same bytes. -/
theorem fbClearZeroesAllBytes : Obligations.FbClearZeroesAllBytes := by
  unfold Obligations.FbClearZeroesAllBytes
  refine ⟨decode_commandWord_fbClear, fun s => ⟨Memory.zeroed, exec_fbClear s, fun _ hi => read_zeroed hi, ?_⟩⟩
  intro hs order hperm
  exact foldl_write_zero_eq_zeroed (fun i => hperm.mem_iff.trans List.mem_range) hs

/-- A pixel set on a cleared framebuffer is its mask in its byte, alone (42_framebuffer R153). -/
theorem read_setPixel_zeroed {x y : Int} (h : onScreen x y = true) :
    (setPixel Memory.zeroed x y).read (pixelIndex x y) = pixelMask x ∧
      ∀ i < 1024, i ≠ pixelIndex x y → (setPixel Memory.zeroed x y).read i = 0 := by
  refine ⟨?_, fun i hi hne => ?_⟩
  · rw [read_setPixel_same, read_zeroed (pixelIndex_lt h)]
    exact BitVec.zero_or
  · rw [read_setPixel_other _ hne, read_zeroed hi]

/-- Settles O30: FB_CLEAR then FB_SET leave `setPixel Memory.zeroed x y`; the other two properties are those of
`Memory.zeroed` and of the checked setter off the screen. -/
theorem clearThenSetLightsOneBit : Obligations.ClearThenSetLightsOneBit := by
  unfold Obligations.ClearThenSetLightsOneBit
  refine ⟨fun s x y hx0 hx hy0 hy => ?_, fun s => ?_, fun x y s hoff => ?_⟩
  · have h := onScreen_of_bounds hx0 hx hy0 hy
    refine ⟨_, _, exec_fbClear s, exec_fbSet_of_onScreen h _, ?_⟩
    dsimp only -- reads the field first: left to unification, all 1024 cells would be unfolded
    exact read_setPixel_zeroed h
  · refine ⟨_, exec_fbClear s, fun i hi => ?_⟩
    dsimp only
    exact read_zeroed hi
  · exact exec_fbSetChecked_of_offScreen (onScreen_eq_false_iff.2 hoff) _

end Sys2Proof.Machine
end

section
/-! Encodings: what each opcode, frame and LCD byte decodes to, the two directions of the codec, and the step that runs
the decoded instruction (30_encoding R81 to R97, 10_state R27, R34). -/

namespace Sys2Proof

/-! ## The command word, opcode by opcode (30_encoding R93, R95) -/

theorem decode_commandWord_clearText (a b c d : Field) :
    decode (.command (commandWord 0x21 a b c d)) = .ok .clearText := by
  simp [decode, decodeCommand]

theorem decode_commandWord_enterGraphics (a b c d : Field) :
    decode (.command (commandWord 0x22 a b c d)) = .ok .enterGraphics := by
  simp [decode, decodeCommand]

theorem decode_commandWord_setCursor (a b c d : Field) :
    decode (.command (commandWord 0x23 a b c d)) = .ok (.setCursor a b.toInt) := by
  simp [decode, decodeCommand, sext16]

theorem decode_commandWord_line (a b c d : Field) :
    decode (.command (commandWord 0x40 a b c d)) = .ok (.line a.toInt b.toInt c.toInt d.toInt) := by
  simp [decode, decodeCommand, sext16]

theorem decode_commandWord_circle (a b c d : Field) :
    decode (.command (commandWord 0x41 a b c d)) = .ok (.circle a.toInt b.toInt c.toInt) := by
  simp [decode, decodeCommand, sext16]

theorem decode_commandWord_refresh (a b c d : Field) :
    decode (.command (commandWord 0x50 a b c d)) = .ok .refresh := by
  simp [decode, decodeCommand]

/-- A word whose opcode has no row is refused by its opcode (30_encoding R96). -/
theorem decode_command_reserved {w : CmdWord}
    (h : opcodeOf w ∉ ([0x10, 0x11, 0x20, 0x21, 0x22, 0x23, 0x30, 0x31, 0x32, 0x40, 0x41, 0x50] : List Byte)) :
    decode (.command w) = .error (.reservedOpcode (opcodeOf w)) := by
  simp only [List.mem_cons, List.not_mem_nil, or_false, not_or] at h
  simp only [decode, decodeCommand, h, if_false]

/-! ## The LCD bytes at their places (30_encoding R86) -/

theorem decode_lcdCursorAddr (a b : BitVec 1) (c : BitVec 3) :
    decode (encode (.lcdCursorAddr a b c)) = .ok (.lcdCursorAddr a b c) := by
  revert a b c; decide

theorem decode_lcdRowSelect (r : BitVec 5) : decode (encode (.lcdRowSelect r)) = .ok (.lcdRowSelect r) := by
  revert r; decide

theorem decode_lcdBankSelect (k : BitVec 1) : decode (encode (.lcdBankSelect k)) = .ok (.lcdBankSelect k) := by
  revert k; decide

/-! ## Both directions of the codec -/

/-- Settles O1: per format, the command words by their opcode with every integer operand surviving its field
(`toField_toInt`), the frames by their nibbles, the LCD bytes by their finitely many operands. -/
theorem decodeUndoesEncode : Obligations.DecodeUndoesEncode := by
  unfold Obligations.DecodeUndoesEncode
  intro i hwf
  cases i with
  | sendInstr byte => rw [encode, decode_commandWord_sendInstr]; simp
  | sendData byte => rw [encode, decode_commandWord_sendData]; simp
  | reset => exact decode_commandWord_reset ..
  | clearText => exact decode_commandWord_clearText ..
  | enterGraphics => exact decode_commandWord_enterGraphics ..
  | setCursor line col => rw [encode, decode_commandWord_setCursor, toField_toInt hwf]
  | fbClear => exact decode_commandWord_fbClear ..
  | fbSet x y =>
    obtain ⟨hx, hy⟩ := Bool.and_eq_true_iff.mp hwf
    rw [encode, decode_commandWord_fbSet, toField_toInt hx, toField_toInt hy]
  | fbSetChecked x y =>
    obtain ⟨hx, hy⟩ := Bool.and_eq_true_iff.mp hwf
    rw [encode, decode_commandWord_fbSetChecked, toField_toInt hx, toField_toInt hy]
  | line x0 y0 x1 y1 =>
    simp only [Instr.wf, Bool.and_eq_true] at hwf
    obtain ⟨⟨⟨hx0, hy0⟩, hx1⟩, hy1⟩ := hwf
    rw [encode, decode_commandWord_line, toField_toInt hx0, toField_toInt hy0, toField_toInt hx1, toField_toInt hy1]
  | circle cx cy radius =>
    simp only [Instr.wf, Bool.and_eq_true] at hwf
    obtain ⟨⟨hcx, hcy⟩, hr⟩ := hwf
    rw [encode, decode_commandWord_circle, toField_toInt hcx, toField_toInt hcy, toField_toInt hr]
  | refresh => exact decode_commandWord_refresh ..
  | frameInstr h l => exact (decodeFrame_frameWord h l).1
  | frameData h l => exact (decodeFrame_frameWord h l).2
  | lcdFuncBasic | lcdDisplayOn | lcdClear | lcdEntryMode | lcdFuncExt | lcdFuncExtGfx => rfl
  | lcdCursorAddr a b c => exact decode_lcdCursorAddr a b c
  | lcdRowSelect r => exact decode_lcdRowSelect r
  | lcdBankSelect k => exact decode_lcdBankSelect k

/-- One row of a decoding table: the row's instruction, or what the rows after it give. -/
theorem wf_of_ite_ok {p : Prop} [Decidable p] {row i : Instr} {others : Except DecodeError Instr}
    (hrow : row.wf = true) (hothers : others = .ok i → i.wf = true) (h : (if p then .ok row else others) = .ok i) :
    i.wf = true := by
  split at h
  · cases h; exact hrow
  · exact hothers h

theorem decodeCommand_wf {w : CmdWord} {i : Instr} : decodeCommand w = .ok i → i.wf = true := by
  refine wf_of_ite_ok rfl <| wf_of_ite_ok rfl <| wf_of_ite_ok rfl <| wf_of_ite_ok rfl <| wf_of_ite_ok rfl <|
    wf_of_ite_ok (fitsField_toInt _) <| wf_of_ite_ok rfl <| wf_of_ite_ok ?fbSet <| wf_of_ite_ok ?fbSetChecked <|
    wf_of_ite_ok ?line <| wf_of_ite_ok ?circle <| wf_of_ite_ok rfl nofun
  all_goals simp [Instr.wf, sext16, fitsField_toInt]

theorem decodeFrame_wf {w : FrameWord} {i : Instr} : decodeFrame w = .ok i → i.wf = true := by
  unfold decodeFrame
  dsimp only
  split
  · exact wf_of_ite_ok rfl <| wf_of_ite_ok rfl nofun
  · nofun

theorem decodeLcd_wf {place : LcdPlace} {b : Byte} {i : Instr} : decodeLcd place b = .ok i → i.wf = true := by
  cases place with
  | plain =>
    exact wf_of_ite_ok rfl <| wf_of_ite_ok rfl <| wf_of_ite_ok rfl <| wf_of_ite_ok rfl <| wf_of_ite_ok rfl <|
      wf_of_ite_ok rfl <| wf_of_ite_ok rfl nofun
  | rowSlot => exact wf_of_ite_ok rfl nofun
  | bankSlot => exact wf_of_ite_ok rfl nofun

/-- Settles O2: a decoded operand is a 16-bit field's value, or exact by its type. -/
theorem decodedInstructionsAreWellFormed : Obligations.DecodedInstructionsAreWellFormed := by
  unfold Obligations.DecodedInstructionsAreWellFormed
  intro e i h
  cases e with
  | command w => exact decodeCommand_wf h
  | inner u =>
    cases u with
    | frame w => exact decodeFrame_wf h
    | lcd place b => exact decodeLcd_wf h

/-- Settles O3: one clause per row of the opcode map. -/
theorem opcodeMapReadsEachCommand : Obligations.OpcodeMapReadsEachCommand := by
  unfold Obligations.OpcodeMapReadsEachCommand
  intro a b c d
  exact ⟨decode_commandWord_sendInstr a b c d, decode_commandWord_sendData a b c d, decode_commandWord_reset a b c d,
    decode_commandWord_clearText a b c d, decode_commandWord_enterGraphics a b c d,
    decode_commandWord_setCursor a b c d, decode_commandWord_fbClear a b c d, decode_commandWord_fbSet a b c d,
    decode_commandWord_fbSetChecked a b c d, decode_commandWord_line a b c d, decode_commandWord_circle a b c d,
    decode_commandWord_refresh a b c d⟩

/-- Settles O4: thirteen closed words, evaluated. -/
theorem sampleWordsDecode : Obligations.SampleWordsDecode := by
  unfold Obligations.SampleWordsDecode
  decide

end Sys2Proof

namespace Sys2Proof.Machine

/-! ## The step on a word -/

/-- A table word that decodes is a word of one of the three formats that decodes. -/
theorem decode_of_decodeTableWord {nbits w : Nat} {i : Instr} (h : decodeTableWord nbits w = some i) :
    decode (tableWord nbits w) = .ok i := by
  unfold decodeTableWord at h
  split at h
  · split at h
    · cases h; assumption
    · cases h
  · cases h

/-- Settles O5: an idle block serves the first input (`step_present`, `step_wordCut`), by way of the decoder. -/
theorem stepRunsTheDecodedInstruction : Obligations.StepRunsTheDecodedInstruction := by
  unfold Obligations.StepRunsTheDecodedInstruction
  refine ⟨fun s e rest i hs hi hd => ?_, fun s e rest r hs hi hd => ?_, fun s w k rest r hs hi hd => ?_,
    fun s hs hi => ?_, fun s nbits w i hd => ?_⟩
  · rw [step_present hs hi, hd]; rfl
  · rw [step_present hs hi, hd]; rfl
  · rw [step_wordCut hs hi, hd]; rfl
  · simp only [step, hs, hi]
  · rw [step_present (withFetchWord_seq ..) (withFetchWord_inputs ..), decode_of_decodeTableWord hd]; rfl

/-- Settles O6: the decoder rejects the word by its opcode, and the step refuses it by name. -/
theorem reservedOpcodesAreRefused : Obligations.ReservedOpcodesAreRefused := by
  unfold Obligations.ReservedOpcodesAreRefused
  intro s w rest hs hi hop
  rw [step_present (e := .command w) hs hi, decode_command_reserved hop]
  rfl

end Sys2Proof.Machine
end

section
/-! Bus Transport: the rows whose program is one frame, the frames as bits and read back, and what a completed command
adds to the trace (40_bus R110 to R117, 30_encoding R81 to R86, R99). -/

namespace Sys2Proof.Machine

/-! ## Rows of one frame -/

/-- Settles O9: the program of a wire frame is that frame. -/
theorem frameRowsEmitTheirFrame : Obligations.FrameRowsEmitTheirFrame := by
  unfold Obligations.FrameRowsEmitTheirFrame
  exact fun _ _ _ hb => ⟨exec_eq_afterFrame rfl rfl rfl hb, exec_eq_afterFrame rfl rfl rfl hb⟩

/-- The cursor byte as the sum of its parts (30_encoding R86, 41_mode R134). -/
theorem lcdCursorByte_eq (cfg : Config) (a b : BitVec 1) (c : BitVec 3) :
    lcdCursorByte cfg a b c =
      cfg.opCursorBase + c.setWidth 8 + 0x10#8 * a.setWidth 8 + 0x08#8 * b.setWidth 8 := by
  have hc : BitVec.ofInt 8 c.toNat = c.setWidth 8 := by revert c; decide
  have ha : (if ((b ++ a).setWidth 16).getLsbD 0 then 0x10 else 0) = 0x10#8 * a.setWidth 8 := by
    revert a b; decide
  have hb : (if ((b ++ a).setWidth 16).getLsbD 1 then 0x08 else 0) = 0x08#8 * b.setWidth 8 := by
    revert a b; decide
  rw [lcdCursorByte, cursorAddr, hc, ha, hb]

/-- A row number of five bits needs no mask (30_encoding R86). -/
theorem rowSelectByte_of_five_bits (cfg : Config) (r : BitVec 5) :
    rowSelectByte cfg r.toNat = cfg.opRowSelect ||| r.setWidth 8 := by
  have hr : BitVec.ofNat 8 r.toNat &&& 0x1F = r.setWidth 8 := by revert r; decide
  rw [rowSelectByte, hr]

/-- Bit 5 of the row is the bank (30_encoding R86). -/
theorem bankSelectByte_of_bit (cfg : Config) (k : BitVec 1) :
    bankSelectByte cfg (k.toNat * 32) = if k = 0 then cfg.opBank0 else cfg.opBank1 := by
  have hk : k.toNat * 32 < 32 ↔ k = 0 := by revert k; decide
  simp only [bankSelectByte, hk]

/-- Settles O10: the program of each row is one instruction frame with the byte its parameter gives. -/
theorem lcdRowsSendTheirParameter : Obligations.LcdRowsSendTheirParameter := by
  unfold Obligations.LcdRowsSendTheirParameter
  intro s hb
  refine ⟨exec_eq_afterFrame rfl rfl rfl hb, exec_eq_afterFrame rfl rfl rfl hb, exec_eq_afterFrame rfl rfl rfl hb,
    exec_eq_afterFrame rfl rfl rfl hb, exec_eq_afterFrame rfl rfl rfl hb, exec_eq_afterFrame rfl rfl rfl hb,
    fun a b c => ?_, fun r => ?_, fun k => ?_⟩
  · rw [← lcdCursorByte_eq]
    exact exec_eq_afterFrame rfl rfl rfl hb
  · rw [← rowSelectByte_of_five_bits]
    exact exec_eq_afterFrame rfl rfl rfl hb
  · rw [← bankSelectByte_of_bit]
    exact exec_eq_afterFrame rfl rfl rfl hb

/-- Under the defaults the three rows with operands send `100abccc`, `100rrrrr` and `1000k000` (30_encoding R86). -/
theorem default_lcd_bytes :
    (∀ (a b : BitVec 1) (c : BitVec 3), Config.default.opCursorBase + c.setWidth 8 + 0x10#8 * a.setWidth 8 +
      0x08#8 * b.setWidth 8 = (0b100 : BitVec 3) ++ a ++ b ++ c) ∧
    (∀ r : BitVec 5, Config.default.opRowSelect ||| r.setWidth 8 = (0b100 : BitVec 3) ++ r) ∧
    ∀ k : BitVec 1, (if k = 0 then Config.default.opBank0 else Config.default.opBank1) =
      (0b1000 : Nibble) ++ k ++ (0 : BitVec 3) := by
  decide

/-- Settles O11: the byte each row sends (O10) is, under the defaults, the byte that encodes it. -/
theorem lcdRowsSendTheirOwnEncoding : Obligations.LcdRowsSendTheirOwnEncoding := by
  unfold Obligations.LcdRowsSendTheirOwnEncoding
  intro i place byte s henc hcfg hb
  obtain ⟨h1, h2, h3, h4, h5, h6, hcursor, hrow, hbank⟩ := lcdRowsSendTheirParameter s hb
  obtain ⟨hcursorByte, hrowByte, hbankByte⟩ := default_lcd_bytes
  rw [hcfg] at h1 h2 h3 h4 h5 h6 hcursor hrow hbank
  cases i
  case lcdFuncBasic => cases henc; exact h1
  case lcdDisplayOn => cases henc; exact h2
  case lcdClear => cases henc; exact h3
  case lcdEntryMode => cases henc; exact h4
  case lcdFuncExt => cases henc; exact h5
  case lcdFuncExtGfx => cases henc; exact h6
  case lcdCursorAddr a b c => cases henc; rw [hcursor, hcursorByte]
  case lcdRowSelect r => cases henc; rw [hrow, hrowByte]
  case lcdBankSelect k => cases henc; rw [hbank, hbankByte]
  all_goals cases henc

/-! ## One frame on the link -/

/-- A physical byte of a frame carries four bits of the logical byte and four zeros (30_encoding R81). -/
theorem serialBits_nibbles (v : Byte) :
    serialBits (v &&& 0xF0) =
      [v.getLsbD 7, v.getLsbD 6, v.getLsbD 5, v.getLsbD 4, false, false, false, false] ∧
    serialBits ((v <<< 4) &&& 0xF0) =
      [v.getLsbD 3, v.getLsbD 2, v.getLsbD 1, v.getLsbD 0, false, false, false, false] := by
  simp [serialBits, List.range_succ, BitVec.getMsbD]

theorem wireBits_frameEvents (sync v : Byte) :
    wireBits (frameEvents sync v) =
      serialBits sync ++ serialBits (v &&& 0xF0) ++ serialBits ((v <<< 4) &&& 0xF0) := by
  simp [wireBits, frameEvents, bytesOf]

/-- Settles O12: the bits of a frame are those of its three physical bytes. -/
theorem frameBitsFollowThePattern : Obligations.FrameBitsFollowThePattern := by
  unfold Obligations.FrameBitsFollowThePattern
  intro v
  obtain ⟨hhigh, hlow⟩ := serialBits_nibbles v
  rw [wireBits_frameEvents, wireBits_frameEvents, hhigh, hlow]
  exact ⟨rfl, rfl⟩

/-- A frame's events are one item, its kind and its logical byte (30_encoding R84). -/
theorem items_frameEvents (v : Byte) :
    items (frameEvents 0xF8 v) = some [.frame .instruction v] ∧ items (frameEvents 0xFA v) = some [.frame .data v] :=
  ⟨(framedAs_frame v).1.1, (framedAs_frame v).2.1⟩

/-- Settles O13: the first byte of a frame is its sync byte, and the frame reads back as its logical byte. -/
theorem framesReadBack : Obligations.FramesReadBack := by
  unfold Obligations.FramesReadBack
  refine ⟨items_frameEvents, fun s s' v v' hs hs' h => ?_⟩
  obtain rfl : s = s' := by injection h with hsync; injection hsync
  refine ⟨rfl, ?_⟩
  have hitems := congrArg items h
  rcases hs with rfl | rfl
  · rw [(items_frameEvents v).1, (items_frameEvents v').1] at hitems
    injection hitems with hitems; injection hitems with hitems; injection hitems
  · rw [(items_frameEvents v).2, (items_frameEvents v').2] at hitems
    injection hitems with hitems; injection hitems with hitems; injection hitems

/-! ## A completed command -/

/-- An instruction on the pins whose transfers the bus allows does all its steps. -/
theorem exec_complete {i : Instr} {s : State} (hu : usesBus i = true)
    (hb : s.busAllows (transfers (program i s.cfg s.fb)) = true) :
    exec i s = .next { runActs (program i s.cfg s.fb) (noted i s) with seq := .idle, inFlight := none } := by
  rw [exec_bus hu, proceed_complete]
  rwa [State.busAllows, noted_bus]

/-- An instruction on the pins that comes to an idle block has emitted its program's events. -/
theorem exec_bus_trace_of_idle {i : Instr} {s t : State} (hu : usesBus i = true) (h : exec i s = .next t)
    (ht : t.seq = .idle) : t.trace = s.trace ++ (program i s.cfg s.fb).filterMap Act.event := by
  rw [exec_bus hu] at h
  cases h
  have hall := (advance_seq_idle_iff ..).1 ht
  rw [proceed_trace, List.take_of_length_le hall, noted_trace]

/-- Settles O14: the events are those of the command's program, which `program_items` reads as whole frames; a drawing
command has none. -/
theorem completedCommandsEmitWholeFrames : Obligations.CompletedCommandsEmitWholeFrames := by
  unfold Obligations.CompletedCommandsEmitWholeFrames
  intro i s t hs h ht
  cases hu : usesBus i with
  | true =>
    obtain ⟨is, ⟨hitems, hcount⟩, hframes⟩ := program_items i s.cfg s.fb
    exact ⟨_, is, exec_bus_trace_of_idle hu h ht, hitems, by rw [bytesOf_events_length, hcount], hframes⟩
  | false =>
    obtain ⟨m, w, c, rfl, -⟩ := exec_draw_frame hu h
    exact ⟨[], [], (List.append_nil _).symm, rfl, rfl, fun _ _ => rfl⟩

/-! ## SEND_STRING -/

/-- The word of one byte of a string reads as SEND_DATA of that byte. -/
theorem decode_sendString_word (b : Byte) :
    decode (.command (commandWord 0x11 (b.setWidth 16) 0 0 0)) = .ok (.sendData b) :=
  decodeUndoesEncode (.sendData b) rfl

theorem run_succ {s s' : State} (h : step s = .next s') (n : Nat) :
    Host.Core.run core (n + 1) s = Host.Core.run core n s' := by
  have hcore : core.step s = .next s' := h
  simp only [Host.Core.run, hcore]

/-- The step that serves the first word of a string: its frame, the other words still to come. -/
theorem step_sendString_word {s : State} {b : Byte} {rest : List Input} (hs : s.seq = .idle)
    (hb : s.busAllows 3 = true) :
    step { s with inputs := .word (commandWord 0x11 (b.setWidth 16) 0 0 0) :: rest } =
      .next { s.afterFrame 0xFA b with inputs := rest } := by
  rw [step_present (e := .command _) (by exact hs) rfl, decode_sendString_word]
  exact sendDataSendsOneDataFrame.2 b _ hb

/-- The bus allows what is left when it allows all. -/
theorem busAllows_afterFrame {s : State} {n : Nat} (h : s.busAllows (3 + n) = true) (sync v : Byte) :
    (s.afterFrame sync v).busAllows n = true := by
  cases hb : s.bus with
  | none => simp [State.busAllows, State.afterFrame, hb]
  | some c =>
    simp only [State.busAllows, hb, decide_eq_true_eq] at h
    simp only [State.busAllows, State.afterFrame, hb, Option.map_some, decide_eq_true_eq]
    omega

/-- Settles O15, by induction on the string: one step sends the first byte's frame, the others follow from there. -/
theorem sendStringStreamsItsBytes : Obligations.SendStringStreamsItsBytes := by
  unfold Obligations.SendStringStreamsItsBytes
  intro bytes s rest hs hfl hb
  induction bytes generalizing s with
  | nil =>
    refine ⟨{ s with inputs := rest }, rfl, ?_⟩
    simp [hs, hfl]
  | cons b bytes ih =>
    rw [List.length_cons, Nat.mul_succ, Nat.add_comm] at hb
    obtain ⟨t, hrun, htrace, hin, hseq, hflight, hfb, hmode, hline, hcon, hcfg, hbus⟩ :=
      ih (s.afterFrame 0xFA b) rfl rfl (busAllows_afterFrame hb ..)
    refine ⟨t, ?_, ?_, hin, hseq, hflight, hfb, hmode, hline, hcon, hcfg, ?_⟩
    · have hstep := step_sendString_word (b := b) (rest := (sendString bytes).map Input.word ++ rest) hs
        (busAllows_le hb (Nat.le_add_right ..))
      exact (run_succ hstep bytes.length).trans hrun
    · rw [htrace]
      simp [State.afterFrame]
    · rw [hbus]
      simp only [State.afterFrame, Option.map_map]
      congr 1
      funext c
      simp only [Function.comp_apply, List.length_cons]
      omega

end Sys2Proof.Machine
end

section
/-! Mode & Reset Controller and the record of contracts: the three text commands, who can enter Uninitialized, what
`MODE` has no influence on, and which flags a step can set (41_mode R129 to R138, 60_exceptions R203 to R206). -/

namespace Sys2Proof.Machine

/-! ## CLEAR_TEXT, ENTER_GRAPHICS, SET_CURSOR -/

/-- Settles O17: CLEAR_TEXT's program is one frame and one hold. -/
theorem clearTextSendsFrameAndHold : Obligations.ClearTextSendsFrameAndHold := by
  unfold Obligations.ClearTextSendsFrameAndHold
  intro s hb
  rw [exec_complete (i := .clearText) rfl hb, runActs_eq, List.append_assoc]
  rfl

/-- Settles O18: ENTER_GRAPHICS' program is two frames and the write of `MODE`. -/
theorem enterGraphicsSendsTwoFrames : Obligations.EnterGraphicsSendsTwoFrames := by
  unfold Obligations.EnterGraphicsSendsTwoFrames
  intro s hb
  rw [exec_complete (i := .enterGraphics) rfl hb, runActs_eq, List.append_assoc]
  rfl

/-- The cursor address as a sum of integers (41_mode R133). -/
theorem cursorAddr_eq_ofInt (line : Field) (col : Int) :
    cursorAddr 0x80 line col = BitVec.ofInt 8
      (0x80 + col + (if line.getLsbD 0 then 0x10 else 0) + (if line.getLsbD 1 then 0x08 else 0)) := by
  simp only [BitVec.ofInt_add, cursorAddr]
  cases line.getLsbD 0 <;> cases line.getLsbD 1 <;> rfl

/-- The column contract, said the other way (41_mode R135). -/
theorem not_columnLegal (col : Int) : (!columnLegal col) = decide (col < 0 ∨ 7 < col) := by
  rw [columnLegal, Bool.eq_iff_iff]
  simp only [Bool.not_eq_true', Bool.and_eq_false_iff, decide_eq_false_iff_not, decide_eq_true_eq]
  omega

/-- Settles O19: SET_CURSOR's program loads its address and sends it as one frame. -/
theorem setCursorSendsItsAddress : Obligations.SetCursorSendsItsAddress := by
  unfold Obligations.SetCursorSendsItsAddress
  refine ⟨decode_commandWord_setCursor, fun line col s hbase hb => ?_⟩
  dsimp only
  rw [exec_complete (i := .setCursor line col) rfl hb, runActs_eq, ← cursorAddr_eq_ofInt, ← not_columnLegal, ← hbase]
  rfl

/-- One bit as a word of length one. -/
theorem extractLsb'_one (v : Field) (n : Nat) : v.extractLsb' n 1 = BitVec.ofBool (v.getLsbD n) := by
  ext i hi
  obtain rfl : i = 0 := by omega
  simp

/-- Settles O20: the two line bits and the three column bits fill `100abccc` without a carry. -/
theorem cursorAddressPattern : Obligations.CursorAddressPattern := by
  unfold Obligations.CursorAddressPattern
  refine ⟨fun line col => ?_, by decide, by decide, by decide, by decide⟩
  have hbits : ∀ (a b : Bool) (col : Fin 8),
      0x80#8 + BitVec.ofInt 8 col.val + (if a then 0x10 else 0) + (if b then 0x08 else 0) =
        0b100#3 ++ BitVec.ofBool a ++ BitVec.ofBool b ++ BitVec.ofNat 3 col.val := by decide
  rw [extractLsb'_one, extractLsb'_one]
  exact hbits _ _ col

/-! ## Uninitialized -/

/-- Settles O22: of the steps of `step_next` only those with a pin leave Uninitialized; a command leaves its own mode
or the one before it (`resume_mode`, O21). -/
theorem uninitializedOnlyByResetPin : Obligations.UninitializedOnlyByResetPin := by
  unfold Obligations.UninitializedOnlyByResetPin
  intro s t h hs ht
  have noResume : ∀ (u : State) (op : Instr) (n : Nat), u.mode = s.mode →
      (u.resume op n).mode ≠ .uninitialized := by
    intro u op n hu
    rcases resume_mode u op n with h | h | h <;> simp [h, hu, hs]
  cases step_next h with
  | still => exact absurd ht hs
  | grant => exact absurd ht hs
  | pin hm => exact ⟨_, hm, rfl⟩
  | idleCut _ hi => exact ⟨_, hi ▸ List.mem_cons_self .., rfl⟩
  | poll => exact absurd ht (noResume _ _ _ rfl)
  | ready => exact absurd ht (noResume _ _ _ rfl)
  | readyCut _ hi => exact ⟨_, (takeEvent_words hi).2.1, rfl⟩
  | word _ _ _ he =>
    rcases onlyResetAndEnterGraphicsWriteMode _ _ _ he with hm | ⟨-, hm⟩ | ⟨-, hm⟩
    · exact absurd (hm ▸ ht) hs
    · rw [hm] at ht; cases ht
    · rw [hm] at ht; cases ht
  | wordCut _ hi => exact ⟨_, hi ▸ List.mem_cons_self .., rfl⟩

/-! ## Two runs beside each other -/

/-- `SEQ` after `k` steps of a command. -/
def seqAfter (op : Instr) (n k : Nat) (acts : List Act) : Seq :=
  match acts.drop k with
  | [] => .idle
  | _ :: _ => .busy op (n + k)

/-- The byte in flight after `k` steps of a command. -/
def inFlightAfter (k : Nat) (acts : List Act) : Option Byte :=
  (acts.drop k).head?.bind Act.transfer

/-- Everything a command run for `k` steps does, field by field. -/
theorem advance_eq (s : State) (op : Instr) (n k : Nat) (acts : List Act) :
    s.advance op n k acts =
      { s with
        mode := (acts.take k).foldl Act.onMode s.mode
        rstLine := (acts.take k).foldl Act.onLine s.rstLine
        work := (acts.take k).foldl Act.onWork s.work
        trace := s.trace ++ (acts.take k).filterMap Act.event
        bus := s.bus.map (· - transfers (acts.take k))
        seq := seqAfter op n k acts
        inFlight := inFlightAfter k acts } := by
  unfold State.advance seqAfter inFlightAfter
  rw [runActs_eq]
  cases acts.drop k <;> rfl

/-- How many steps of an instruction the bus lets it do. -/
def State.allowed (s : State) (i : Instr) : Nat := reach s.bus (program i s.cfg s.fb)

/-- The steps of an instruction that the bus lets it do. -/
def State.done (s : State) (i : Instr) : List Act := (program i s.cfg s.fb).take (s.allowed i)

/-- What a bus instruction leaves, field by field. -/
theorem exec_bus_eq {i : Instr} (hu : usesBus i = true) (s : State) :
    exec i s = .next
      { s with
        mode := (s.done i).foldl Act.onMode s.mode
        rstLine := (s.done i).foldl Act.onLine s.rstLine
        work := (s.done i).foldl Act.onWork s.work
        trace := s.trace ++ (s.done i).filterMap Act.event
        bus := s.bus.map (· - transfers (s.done i))
        seq := seqAfter i 0 (s.allowed i) (program i s.cfg s.fb)
        inFlight := inFlightAfter (s.allowed i) (program i s.cfg s.fb)
        contracts := (noted i s).contracts } := by
  rw [exec_bus hu, State.proceed, advance_eq]
  simp [State.done, State.allowed]

/-- Settles O23: nothing in a bus instruction's course reads `MODE` but the record of contracts and `MODE` itself, and
no drawing instruction has it. -/
theorem noOutputDependsOnMode : Obligations.NoOutputDependsOnMode := by
  unfold Obligations.NoOutputDependsOnMode
  intro i s m
  cases hu : usesBus i with
  | true =>
    rw [exec_bus_eq hu, exec_bus_eq hu]
    exact ⟨rfl, rfl, rfl, rfl, rfl, rfl, rfl, rfl, rfl⟩
  | false =>
    cases i
    case fbClear | fbSetChecked | circle => exact ⟨rfl, rfl, rfl, rfl, rfl, rfl, rfl, rfl, rfl⟩
    case fbSet x y =>
      simp only [exec, execFbSet]
      split
      · exact ⟨rfl, rfl, rfl, rfl, rfl, rfl, rfl, rfl, rfl⟩
      · rfl
    case line x0 y0 x1 y1 =>
      simp only [exec, execLine]
      split
      · exact ⟨rfl, rfl, rfl, rfl, rfl, rfl, rfl, rfl, rfl⟩
      · rfl
    all_goals cases hu

/-! ## The record of contracts -/

/-- Every instruction records its mode contract, and so does one that has none (60_exceptions R205). -/
theorem exec_contracts_mode {i : Instr} {s t : State} (h : exec i s = .next t) :
    t.contracts.mode = (s.contracts.mode || !modeLegal i s.mode) := by
  cases hu : usesBus i with
  | true =>
    rw [exec_bus hu] at h
    cases h
    rw [proceed_contracts]
    cases i <;> simp [noted, modeLegal]
  | false =>
    obtain ⟨m, w, c, rfl, hc, -⟩ := exec_draw_frame hu h
    have hlegal : modeLegal i s.mode = true := by
      cases i <;> first | exact Bool.noConfusion hu | rfl
    rw [hc, hlegal, Bool.not_true, Bool.or_false]

/-- The modes each contract forbids (60_exceptions R205). -/
theorem modeLegal_eq_false_iff (i : Instr) (m : Mode) :
    modeLegal i m = false ↔
      ((i = .clearText ∨ i = .enterGraphics ∨ ∃ line col, i = .setCursor line col) ∧ m ≠ .text) ∨
        (i = .refresh ∧ m ≠ .graphics) := by
  cases i <;> simp [modeLegal]

/-- Settles O24: the flag is set if it was, or if the contract forbids the mode. -/
theorem modeContractIsRecorded : Obligations.ModeContractIsRecorded := by
  unfold Obligations.ModeContractIsRecorded
  intro i s t h
  rw [exec_contracts_mode h, Bool.or_eq_true, Bool.not_eq_true', modeLegal_eq_false_iff]

/-- Every flag set in the first record is set in the second. -/
structure Contracts.Kept (c d : Contracts) : Prop where
  mode : c.mode = true → d.mode = true
  column : c.column = true → d.column = true
  endpoint : c.endpoint = true → d.endpoint = true
  radius : c.radius = true → d.radius = true
  abandoned : c.abandoned = true → d.abandoned = true

theorem Contracts.Kept.refl (c : Contracts) : c.Kept c := ⟨id, id, id, id, id⟩

theorem Contracts.Kept.trans {c d e : Contracts} (h : c.Kept d) (h' : d.Kept e) : c.Kept e :=
  ⟨h'.mode ∘ h.mode, h'.column ∘ h.column, h'.endpoint ∘ h.endpoint, h'.radius ∘ h.radius,
    h'.abandoned ∘ h.abandoned⟩

theorem blockReset_kept (s : State) : s.contracts.Kept s.blockReset.contracts :=
  ⟨id, id, id, id, fun h => by simp [h]⟩

theorem exec_kept {i : Instr} {s t : State} (h : exec i s = .next t) : s.contracts.Kept t.contracts := by
  cases hu : usesBus i with
  | true =>
    rw [exec_bus hu] at h
    cases h
    obtain ⟨hm, hc, he, hr, ha⟩ := noted_keeps i s
    rw [proceed_contracts]
    exact ⟨hm, hc, he.trans, hr.trans, ha.trans⟩
  | false =>
    obtain ⟨m, w, c, rfl, hm, hc, ha, he, hr, -⟩ := exec_draw_frame hu h
    exact ⟨hm.trans, hc.trans, he, hr, ha.trans⟩

theorem execCut_kept {i : Instr} {k : Nat} {s t : State} (h : execCut i k s = .next t) :
    s.contracts.Kept t.contracts := by
  rcases execCut_next h with ⟨-, m, -, rfl⟩ | ⟨-, u, hu, rfl⟩
  · obtain ⟨hm, hc, he, hr, ha⟩ := accepted_keeps s i
    refine Contracts.Kept.trans ?_ (blockReset_kept (s.cutAt i k m))
    rw [cutAt_contracts]
    exact ⟨hm, hc, he, hr, ha.trans⟩
  · exact (exec_kept hu).trans (blockReset_kept u)

/-- Settles O25: a step takes note, runs steps of a command or resets the block, and none of these clears a flag. -/
theorem contractFaultsAreSticky : Obligations.ContractFaultsAreSticky := by
  unfold Obligations.ContractFaultsAreSticky
  intro s t h
  have hkept : s.contracts.Kept t.contracts := by
    cases step_next h with
    | still | grant => exact .refl _
    | pin | idleCut => exact blockReset_kept _
    | poll | ready => rw [State.resume, proceed_contracts]; exact .refl _
    | readyCut =>
      refine Contracts.Kept.trans ?_ (blockReset_kept _)
      rw [State.resumeWithin, proceedWithin_contracts]
      exact .refl _
    | word _ _ _ he => exact (exec_kept he :)
    | wordCut _ _ _ he => exact (execCut_kept he :)
  exact ⟨hkept.mode, hkept.column, hkept.endpoint, hkept.radius, hkept.abandoned⟩

end Sys2Proof.Machine
end

section
/-! Framebuffer: the address of a pixel and back, what FB_SET lights, and which instructions write `FB` and clear its
bits (20_memory R51, R52, 42_framebuffer R145 to R152). -/

namespace Sys2Proof.Machine

/-- Settles O27: off the screen FB_SET takes the branch that faults. -/
theorem fbSetOffScreenFaults : Obligations.FbSetOffScreenFaults := by
  unfold Obligations.FbSetOffScreenFaults
  intro x y s h
  exact if_neg (by rw [onScreen_eq_false_iff.2 h]; exact Bool.false_ne_true)

/-! ## The address of a pixel (20_memory R51, R52) -/

/-- The mask of column `x` is the bit `7 - x % 8`. -/
theorem pixelMask_eq_iff (x : Int) (b : Fin 8) : pixelMask x = 1#8 <<< b.val ↔ x % 8 = 7 - b.val := by
  have hmask : ∀ n b : Fin 8, (0x80 : Byte) >>> n.val = 1#8 <<< b.val ↔ n.val = 7 - b.val := by decide
  have hx := hmask ⟨(x % 8).toNat, by omega⟩ b
  dsimp only at hx
  rw [pixelMask, hx]
  omega

/-- Settles O31: the byte holds eight columns of one row, and its bits count them from the left. -/
theorem pixelAddressIsABijection : Obligations.PixelAddressIsABijection := by
  unfold Obligations.PixelAddressIsABijection
  refine ⟨fun x y h => ⟨pixelIndex_lt h, ⟨(7 - x % 8).toNat, by omega⟩, ?_⟩, fun i b hi => ⟨?_, fun x y h => ?_⟩⟩
  · rw [pixelMask_eq_iff]
    dsimp only
    omega
  · rw [onScreen_iff]
    omega
  · rw [onScreen_iff] at h
    rw [pixelMask_eq_iff, pixelIndex]
    omega

/-- Settles O32: FB_SET that completes is `setPixel`, which lights its pixel only. -/
theorem fbSetLightsItsPixelOnly : Obligations.FbSetLightsItsPixelOnly := by
  unfold Obligations.FbSetLightsItsPixelOnly
  intro x y px py s t h hp he
  rw [exec_fbSet_of_onScreen h] at he
  cases he
  rw [fbGet_setPixel _ h hp, Bool.or_eq_true, decide_eq_true_eq]

/-! ## Who writes `FB` -/

/-- An instruction on the pins only reads the framebuffer. -/
theorem exec_bus_fb {i : Instr} {s t : State} (hu : usesBus i = true) (h : exec i s = .next t) : t.fb = s.fb := by
  rw [exec_bus hu] at h
  cases h
  rw [proceed_fb, noted_fb]

/-- Settles O33: an instruction other than FB_CLEAR plots points, which clears no bit, or leaves `FB`. -/
theorem onlyFbClearClearsBits : Obligations.OnlyFbClearClearsBits := by
  unfold Obligations.OnlyFbClearClearsBits
  intro i s t h hi j
  cases hu : usesBus i with
  | true => rw [exec_bus_fb hu h, BitVec.and_self]
  | false =>
    obtain ⟨m, w, c, rfl, -, -, -, -, -, ⟨-, hclear⟩ | ⟨points, rfl⟩⟩ := exec_draw_frame hu h
    · exact absurd hclear hi
    · exact plotVisible_keeps_bits points s.fb j

/-- Settles O34: the instructions that do not use the pins are the five. -/
theorem onlyDrawingWritesFramebuffer : Obligations.OnlyDrawingWritesFramebuffer := by
  unfold Obligations.OnlyDrawingWritesFramebuffer
  intro i s t h hfb
  cases i
  case fbClear => exact .inl rfl
  case fbSet x y => exact .inr (.inl ⟨x, y, rfl⟩)
  case fbSetChecked x y => exact .inr (.inr (.inl ⟨x, y, rfl⟩))
  case line x0 y0 x1 y1 => exact .inr (.inr (.inr (.inl ⟨x0, y0, x1, y1, rfl⟩)))
  case circle cx cy r => exact .inr (.inr (.inr (.inr ⟨cx, cy, r, rfl⟩)))
  all_goals exact absurd (exec_bus_fb rfl h) hfb

end Sys2Proof.Machine
end

section
/-! LINE: the frame and the ranges of its registers, its points in closed form, its symmetry, and the outcome as a
function of where its points lie (43_rasterizer_line R160 to R166). -/

namespace Sys2Proof.Machine

/-! ## The registers -/

@[simp] theorem lineAfter_x0 (k : Nat) (w : Work) : (lineAfter k w).x0 = w.x0 := by rw [lineAfter_fixed]
@[simp] theorem lineAfter_y0 (k : Nat) (w : Work) : (lineAfter k w).y0 = w.y0 := by rw [lineAfter_fixed]
@[simp] theorem lineAfter_x1 (k : Nat) (w : Work) : (lineAfter k w).x1 = w.x1 := by rw [lineAfter_fixed]
@[simp] theorem lineAfter_y1 (k : Nat) (w : Work) : (lineAfter k w).y1 = w.y1 := by rw [lineAfter_fixed]
@[simp] theorem lineAfter_steep (k : Nat) (w : Work) : (lineAfter k w).steep = w.steep := by rw [lineAfter_fixed]
@[simp] theorem lineAfter_deltax (k : Nat) (w : Work) : (lineAfter k w).deltax = w.deltax := by rw [lineAfter_fixed]
@[simp] theorem lineAfter_deltay (k : Nat) (w : Work) : (lineAfter k w).deltay = w.deltay := by rw [lineAfter_fixed]
@[simp] theorem lineAfter_ystep (k : Nat) (w : Work) : (lineAfter k w).ystep = w.ystep := by rw [lineAfter_fixed]

/-- The registers LINE does not have. -/
theorem lineStart_frame (x0 y0 x1 y1 : Int) (w : Work) :
    let v := lineStart x0 y0 x1 y1 w
    v.fsync = w.fsync ∧ v.fval = w.fval ∧ v.fidx = w.fidx ∧ v.cx = w.cx ∧ v.cy = w.cy ∧ v.e = w.e ∧
      v.row = w.row ∧ v.col = w.col ∧ v.addr = w.addr :=
  ⟨rfl, rfl, rfl, rfl, rfl, rfl, rfl, rfl, rfl⟩

/-- A whole LINE leaves them. -/
theorem line_frame (n : Nat) (x0 y0 x1 y1 : Int) (w : Work) :
    let v := lineAfter n (lineStart x0 y0 x1 y1 w)
    v.fsync = w.fsync ∧ v.fval = w.fval ∧ v.fidx = w.fidx ∧ v.cx = w.cx ∧ v.cy = w.cy ∧ v.e = w.e ∧
      v.row = w.row ∧ v.col = w.col ∧ v.addr = w.addr := by
  rw [lineAfter_fixed]
  exact lineStart_frame x0 y0 x1 y1 w

/-- What holds of every operand holds of the four coordinates after the two exchanges. -/
theorem lineStart_operands (P : Int → Prop) {x0 y0 x1 y1 : Int} (w : Work) (hx0 : P x0) (hy0 : P y0) (hx1 : P x1)
    (hy1 : P y1) :
    let v := lineStart x0 y0 x1 y1 w
    P v.x0 ∧ P v.y0 ∧ P v.x1 ∧ P v.y1 := by
  intro v
  rcases le_or_gt |y1 - y0| |x1 - x0| with h | h
  · obtain ⟨-, ⟨-, e0, e1, e2, e3⟩ | ⟨-, e0, e1, e2, e3⟩⟩ := lineStart_shallow x0 y0 x1 y1 w h
    all_goals simp only [v, e0, e1, e2, e3]; exact ⟨‹_›, ‹_›, ‹_›, ‹_›⟩
  · obtain ⟨-, ⟨-, e0, e1, e2, e3⟩ | ⟨-, e0, e1, e2, e3⟩⟩ := lineStart_steep x0 y0 x1 y1 w h
    all_goals simp only [v, e0, e1, e2, e3]; exact ⟨‹_›, ‹_›, ‹_›, ‹_›⟩

theorem LineInit.deltay_nonneg {w : Work} (h : LineInit w) : 0 ≤ w.deltay := by
  rw [h.deltay]; exact abs_nonneg _

/-- Whatever part of the loop has run, `x`, `y` and `err` are in their ranges (43_rasterizer_line R164). -/
theorem lineAfter_bounds {w : Work} (h : LineInit w) {k : Nat} (hk : k ≤ lineCount w) :
    (lineAfter k w).x = w.x0 + k ∧ min w.y0 w.y1 ≤ (lineAfter k w).y ∧ (lineAfter k w).y ≤ max w.y0 w.y1 ∧
      0 ≤ (lineAfter k w).err ∧ (lineAfter k w).err ≤ w.deltax := by
  rcases Int.lt_or_le 0 w.deltax with hd | hd
  · obtain ⟨hx, -, h0, h1⟩ := line_course h hd k
    obtain ⟨h2, h3⟩ := line_course_bounds h (Nat.lt_or_eq_of_le hk) hd
    exact ⟨hx, h2, h3, h0, h1.le⟩
  · have hs := h.slope
    have hy := h.deltay_nonneg
    obtain rfl : k = 0 := by unfold lineCount at hk; omega
    simp only [lineAfter, h.x, h.y, h.err]
    omega

/-- Every register of LINE and its one intermediate value are sums of two operands at most (10_state R31). -/
theorem lineAfter_range {x0 y0 x1 y1 : Int} (hwf : (Instr.line x0 y0 x1 y1).wf = true) (w : Work) {k : Nat}
    (hk : k ≤ lineCount (lineStart x0 y0 x1 y1 w)) :
    let r := lineAfter k (lineStart x0 y0 x1 y1 w)
    ∀ v ∈ [r.x0, r.y0, r.x1, r.y1, r.deltax, r.deltay, r.err, r.err - r.deltay, r.x, r.y],
      -65535 ≤ v ∧ v ≤ 65535 := by
  simp only [Instr.wf, Bool.and_eq_true, fitsField, decide_eq_true_eq] at hwf
  obtain ⟨⟨⟨hx0, hy0⟩, hx1⟩, hy1⟩ := hwf
  obtain ⟨⟨a1, a2⟩, ⟨b1, b2⟩, ⟨c1, c2⟩, d1, d2⟩ :=
    lineStart_operands (fun v => -32768 ≤ v ∧ v ≤ 32767) w hx0 hy0 hx1 hy1
  have hi := lineStart_init x0 y0 x1 y1 w
  obtain ⟨hx, hy, hy', he, he'⟩ := lineAfter_bounds hi hk
  have hdx := hi.deltax
  have hsl := hi.slope
  have hdy := hi.deltay_nonneg
  unfold lineCount at hk
  simp only [List.forall_mem_cons, List.not_mem_nil, false_implies, implies_true, and_true, lineAfter_x0, lineAfter_y0,
    lineAfter_x1, lineAfter_y1, lineAfter_deltax, lineAfter_deltay]
  omega

/-- Settles O41: the course of the loop from the start's operands, before its last iteration. -/
theorem lineLoopInvariant : Obligations.LineLoopInvariant := by
  unfold Obligations.LineLoopInvariant
  intro x0 y0 x1 y1 w k hwf
  dsimp only
  intro hk
  have hi := lineStart_init x0 y0 x1 y1 w
  have hrange := lineAfter_range hwf w hk.le
  obtain ⟨hx, hy, hy', -, -⟩ := lineAfter_bounds hi hk.le
  have hd : 0 < (lineStart x0 y0 x1 y1 w).deltax := by unfold lineCount at hk; omega
  obtain ⟨-, -, herr, herr'⟩ := line_course hi hd k
  have hdx := hi.deltax
  refine ⟨?_, ?_, herr, ?_, ?_, ?_, ?_, ?_, hrange⟩
  all_goals simp only [lineAfter_x0, lineAfter_y0, lineAfter_x1, lineAfter_y1, lineAfter_deltax, lineAfter_deltay]
  · exact hi.deltay_nonneg
  · exact hi.slope
  · exact herr'
  · exact hx
  · unfold lineCount at hk; omega
  · exact hy
  · exact hy'

/-! ## The points -/

/-- The height of the line over the column `a`, rounded (43_rasterizer_line R162). -/
def lineHeight (w : Work) (a : Int) : Int :=
  w.y0 + w.ystep * (((a - w.x0) * w.deltay + (w.deltax - 1 - w.deltax / 2)) / w.deltax)

/-- The points of the loop in closed form: one in each column from `x0` to `x1 - 1`, roles swapped back. -/
theorem mem_linePoints_iff {w : Work} (h : LineInit w) (p : Int × Int) :
    p ∈ linePoints (lineCount w) w ↔
      ∃ a, (w.x0 ≤ a ∧ a < w.x1) ∧ p = if w.steep then (lineHeight w a, a) else (a, lineHeight w a) := by
  have hdx := h.deltax
  have hpoint : ∀ k : Nat, k < lineCount w → linePoint (lineAfter k w) =
      if w.steep then (lineHeight w (w.x0 + k), w.x0 + k) else (w.x0 + k, lineHeight w (w.x0 + k)) := by
    intro k hk
    obtain ⟨hx, hy, -, -⟩ := line_course h (by unfold lineCount at hk; omega) k
    rw [linePoint, hx, hy, lineAfter_steep, lineHeight, add_sub_cancel_left]
  rw [mem_linePoints]
  constructor
  · rintro ⟨k, hk, rfl⟩
    exact ⟨w.x0 + k, by unfold lineCount at hk; omega, hpoint k hk⟩
  · rintro ⟨a, ha, rfl⟩
    have hk : (a - w.x0).toNat < lineCount w := by unfold lineCount; omega
    refine ⟨_, hk, ?_⟩
    rw [hpoint _ hk, Int.toNat_of_nonneg (by omega), add_sub_cancel]

/-- The points of a line that is not steep. -/
theorem mem_linePoints_shallow {w : Work} (h : LineInit w) (hs : w.steep = false) {px py : Int} :
    (px, py) ∈ linePoints (lineCount w) w ↔ w.x0 ≤ px ∧ px < w.x1 ∧ py = lineHeight w px := by
  simp only [mem_linePoints_iff h, hs, Bool.false_eq_true, if_false, Prod.mk.injEq]
  constructor
  · rintro ⟨a, ⟨ha, ha'⟩, rfl, rfl⟩
    exact ⟨ha, ha', rfl⟩
  · rintro ⟨ha, ha', rfl⟩
    exact ⟨px, ⟨ha, ha'⟩, rfl, rfl⟩

/-- The points of a steep line. -/
theorem mem_linePoints_steep {w : Work} (h : LineInit w) (hs : w.steep = true) {px py : Int} :
    (px, py) ∈ linePoints (lineCount w) w ↔ w.x0 ≤ py ∧ py < w.x1 ∧ px = lineHeight w py := by
  simp only [mem_linePoints_iff h, hs, if_true, Prod.mk.injEq]
  constructor
  · rintro ⟨a, ⟨ha, ha'⟩, rfl, rfl⟩
    exact ⟨ha, ha', rfl⟩
  · rintro ⟨ha, ha', rfl⟩
    exact ⟨py, ⟨ha, ha'⟩, rfl, rfl⟩

theorem linePoints_eq_map (n : Nat) (w : Work) :
    linePoints n w = (List.range n).map fun k => linePoint (lineAfter k w) := by
  induction n generalizing w with
  | zero => rfl
  | succ n ih =>
    rw [linePoints, ih, List.range_succ_eq_map, List.map_cons, List.map_map]
    rfl

/-- The loop comes to each column once, so no point is plotted twice. -/
theorem linePoints_nodup {w : Work} (h : LineInit w) : (linePoints (lineCount w) w).Nodup := by
  rw [linePoints_eq_map]
  refine List.Nodup.map_on (fun j hj k hk hjk => ?_) List.nodup_range
  rw [List.mem_range] at hj hk
  obtain ⟨hxj, -⟩ := lineAfter_bounds h hj.le
  obtain ⟨hxk, -⟩ := lineAfter_bounds h hk.le
  have hx : (lineAfter j w).x = (lineAfter k w).x := by
    simp only [linePoint, lineAfter_steep] at hjk
    split at hjk
    · exact (Prod.ext_iff.1 hjk).2
    · exact (Prod.ext_iff.1 hjk).1
  omega

/-- Between two points of the screen LINE plots on the screen only (43_rasterizer_line R165). -/
theorem lineDrawn_onScreen {x0 y0 x1 y1 : Int} (h0 : onScreen x0 y0 = true) (h1 : onScreen x1 y1 = true) (w : Work) :
    ∀ p ∈ lineDrawn x0 y0 x1 y1 w, onScreen p.1 p.2 = true := by
  intro p hp
  have hbox := linePoints_box x0 y0 x1 y1 w p hp
  rw [onScreen_iff] at *
  omega

/-! ## The outcome -/

/-- Plotting a list of points lights its points on the screen. -/
theorem fbGet_plotVisible_iff (points : List (Int × Int)) (m : Memory) {px py : Int} (hp : onScreen px py = true) :
    fbGet (plotVisible points m) px py = true ↔ fbGet m px py = true ∨ (px, py) ∈ points := by
  rw [fbGet_plotVisible _ _ hp, Bool.or_eq_true, decide_eq_true_eq]

/-- LINE that never leaves the screen (43_rasterizer_line R160, R165). -/
theorem exec_line_of_onScreen {x0 y0 x1 y1 : Int} {s : State}
    (h : ∀ p ∈ lineDrawn x0 y0 x1 y1 s.work, onScreen p.1 p.2 = true) :
    exec (.line x0 y0 x1 y1) s = .next { s.noteEndpoints x0 y0 x1 y1 with
      fb := plotVisible (lineDrawn x0 y0 x1 y1 s.work) s.fb
      work := lineAfter (lineCount (lineStart x0 y0 x1 y1 s.work)) (lineStart x0 y0 x1 y1 s.work) } := by
  simp only [exec, execLine, plotUnchecked_of_onScreen h]

/-- LINE stops at the first point off the screen, if there is one (43_rasterizer_line R165). -/
theorem exec_line_fault_iff {x0 y0 x1 y1 a b : Int} {s : State} :
    exec (.line x0 y0 x1 y1) s = .fault (.lineOffScreen a b) ↔
      plotUnchecked (lineDrawn x0 y0 x1 y1 s.work) s.fb = .error (a, b) := by
  simp only [exec, execLine]
  split
  · simp [*]
  · simp [*, Prod.ext_iff]

/-- LINE whose points are all on the screen: its outcome, its frame, and what it lights. -/
theorem line_completes {x0 y0 x1 y1 : Int} {s : State}
    (h : ∀ p ∈ lineDrawn x0 y0 x1 y1 s.work, onScreen p.1 p.2 = true) :
    ∃ (m : Memory) (w : Work),
      exec (.line x0 y0 x1 y1) s = .next { s with
        fb := m
        work := w
        contracts := { s.contracts with
          endpoint := s.contracts.endpoint || !(onScreen x0 y0 && onScreen x1 y1) } } ∧
      (w.fsync = s.work.fsync ∧ w.fval = s.work.fval ∧ w.fidx = s.work.fidx ∧ w.cx = s.work.cx ∧
        w.cy = s.work.cy ∧ w.e = s.work.e ∧ w.row = s.work.row ∧ w.col = s.work.col ∧
        w.addr = s.work.addr) ∧
      (∀ px py : Int, onScreen px py = true →
        (fbGet m px py = true ↔ fbGet s.fb px py = true ∨ (px, py) ∈ lineDrawn x0 y0 x1 y1 s.work)) ∧
      ∀ i : Nat, (∀ p ∈ lineDrawn x0 y0 x1 y1 s.work, pixelIndex p.1 p.2 ≠ i) → m.read i = s.fb.read i :=
  ⟨_, _, exec_line_of_onScreen h, line_frame .., fun _ _ hp => fbGet_plotVisible_iff _ _ hp,
    fun i hi => read_plotVisible_other _ _ i fun p hp _ => hi p hp⟩

/-- Settles O35: the points are on the screen with the endpoints, and no contract is broken. -/
theorem lineCompletesOnScreen : Obligations.LineCompletesOnScreen := by
  unfold Obligations.LineCompletesOnScreen
  intro x0 y0 x1 y1 s h0 h1
  obtain ⟨m, w, he, hw, hlit, hread⟩ := line_completes (lineDrawn_onScreen h0 h1 s.work)
  refine ⟨m, w, ?_, hw, hlit, hread⟩
  rw [he, h0, h1, Bool.and_self, Bool.not_true, Bool.or_false]

/-- Settles O36: the closed form of the points, the start's registers being the operands as given. -/
theorem shallowLineClosedForm : Obligations.ShallowLineClosedForm := by
  unfold Obligations.ShallowLineClosedForm
  intro x0 y0 x1 y1 s h0 h1 hx hslope
  obtain ⟨m, w, he, -, hlit, -⟩ := lineCompletesOnScreen x0 y0 x1 y1 s h0 h1
  refine ⟨m, w, he, fun px py hp => (hlit px py hp).trans (or_congr_right ?_)⟩
  have hi := lineStart_init x0 y0 x1 y1 s.work
  obtain ⟨hs, ⟨-, e0, e1, e2, e3⟩ | ⟨hlt, -⟩⟩ :=
    lineStart_shallow x0 y0 x1 y1 s.work (hslope.trans (le_abs_self _))
  · rw [lineDrawn, mem_linePoints_shallow hi hs, lineHeight, hi.ystep, hi.deltax, hi.deltay, e0, e1, e2, e3]
  · omega

/-- Settles O37: the same with the axes exchanged. -/
theorem steepLineClosedForm : Obligations.SteepLineClosedForm := by
  unfold Obligations.SteepLineClosedForm
  intro x0 y0 x1 y1 s h0 h1 hy hslope
  obtain ⟨m, w, he, -, hlit, -⟩ := lineCompletesOnScreen x0 y0 x1 y1 s h0 h1
  refine ⟨m, w, he, fun px py hp => (hlit px py hp).trans (or_congr_right ?_)⟩
  have hi := lineStart_init x0 y0 x1 y1 s.work
  obtain ⟨hs, ⟨-, e0, e1, e2, e3⟩ | ⟨hlt, -⟩⟩ :=
    lineStart_steep x0 y0 x1 y1 s.work (hslope.trans_le (le_abs_self _))
  · rw [lineDrawn, mem_linePoints_steep hi hs, lineHeight, hi.ystep, hi.deltax, hi.deltay, e0, e1, e2, e3]
  · omega

theorem steepOf_symm (x0 y0 x1 y1 : Int) : steepOf x0 y0 x1 y1 = steepOf x1 y1 x0 y0 := by
  simp only [steepOf, decide_eq_decide]
  omega

/-- The exchange orders the ends along the major axis, and two ends alike on it are one point. -/
theorem lineStart_symm (x0 y0 x1 y1 : Int) (w : Work) : lineStart x0 y0 x1 y1 w = lineStart x1 y1 x0 y0 w := by
  unfold lineStart
  rw [← steepOf_symm x0 y0 x1 y1]
  cases hs : steepOf x0 y0 x1 y1 with
  | false =>
    rcases lt_trichotomy x0 x1 with hx | hx | hx
    · simp [hx, hx.not_gt]
    · have hy : y0 = y1 := by simp only [steepOf, decide_eq_false_iff_not] at hs; omega
      rw [hx, hy]
    · simp [hx, hx.not_gt]
  | true =>
    rcases lt_trichotomy y0 y1 with hy | hy | hy
    · simp [hy, hy.not_gt]
    · simp only [steepOf, decide_eq_true_eq] at hs; omega
    · simp [hy, hy.not_gt]

/-- Settles O38: the start, the points and the record do not know which end was named first. -/
theorem lineIsSymmetricInItsEndpoints : Obligations.LineIsSymmetricInItsEndpoints := by
  unfold Obligations.LineIsSymmetricInItsEndpoints
  intro x0 y0 x1 y1 s
  have hnote : s.noteEndpoints x0 y0 x1 y1 = s.noteEndpoints x1 y1 x0 y0 := by
    simp only [State.noteEndpoints, endpointsLegal, Bool.and_comm]
  simp only [exec, execLine, lineDrawn, lineStart_symm x0 y0 x1 y1, hnote]

/-- Settles O39: the loop of equal endpoints runs no iteration. -/
theorem lineOfOnePointDrawsNothing : Obligations.LineOfOnePointDrawsNothing := by
  unfold Obligations.LineOfOnePointDrawsNothing
  intro x y s
  have hnone : lineDrawn x y x y s.work = [] := by
    rw [← List.length_eq_zero_iff, lineDrawn, linePoints_length, lineCount_eq]
    simp
  rw [exec_line_of_onScreen (by simp [hnone]), hnone]
  exact ⟨_, by simp only [State.noteEndpoints, endpointsLegal, Bool.and_self]; rfl⟩

/-- Settles O40: count, distinctness and box of the points; and by whether all are on the screen, the outcome. -/
theorem linePointsBoundTheirFaults : Obligations.LinePointsBoundTheirFaults := by
  unfold Obligations.LinePointsBoundTheirFaults
  intro x0 y0 x1 y1 s
  refine ⟨?_, linePoints_nodup (lineStart_init ..), linePoints_box x0 y0 x1 y1 s.work, line_completes,
    fun a b => ?_⟩
  · rw [lineDrawn, linePoints_length, lineCount_eq]
  · rw [exec_line_fault_iff, plotUnchecked_error_iff]

end Sys2Proof.Machine
end

section
/-! CIRCLE: the ranges of its registers, the points it plots and their symmetry (44_rasterizer_circle R176 to R183). -/

namespace Sys2Proof.Machine

/-! ## The registers -/

/-- A negative radius runs no iteration (44_rasterizer_circle R183). -/
theorem circleAfter_of_neg {radius : Int} (h : radius < 0) (v : CircleStep) (w : Work) :
    circleAfter v radius.toNat w = w := by
  rw [Int.toNat_of_nonpos h.le, circleAfter]

/-- The size of the registers at the end of the loop, for any radius. -/
theorem circleAfter_bounds (v : CircleStep) (cx cy radius : Int) (w : Work) :
    let r := circleAfter v radius.toNat (circleStart cx cy radius w)
    r.x.natAbs ≤ radius.natAbs + 1 ∧ r.y.natAbs ≤ radius.natAbs ∧ r.e.natAbs ≤ 2 * radius.natAbs := by
  rcases Int.lt_or_le radius 0 with h | h
  · simp only [circleAfter_of_neg h, circleStart]
    omega
  · obtain ⟨h1, h2, h3, h4, -, h6, -, h8, -⟩ := circleAfter_inv (circleStart_inv v cx cy h w) radius.toNat
    dsimp only
    omega

/-- Settles O47: the loop has run until `x > y` fails, and its invariant holds there. -/
theorem circleLoopEnds : Obligations.CircleLoopEnds := by
  unfold Obligations.CircleLoopEnds
  intro cx cy radius s t _ hr h
  cases h
  have hinv := circleAfter_inv (circleStart_inv s.cfg.circleStep cx cy hr s.work) radius.toNat
  have hends := circleAfter_ends (v := s.cfg.circleStep) radius.toNat (circleStart cx cy radius s.work)
    (by simp only [circleStart]; omega)
  simp only [circleGoes, decide_eq_false_iff_not] at hends
  obtain ⟨h1, h2, h3, h4, -, h6, -, h8, -⟩ := hinv
  dsimp only
  rw [abs_le]
  omega

/-- Settles O46: the value the invariant gives the error; a negative radius stays at the start. -/
theorem circleErrorTermIsTheMidpoint : Obligations.CircleErrorTermIsTheMidpoint := by
  unfold Obligations.CircleErrorTermIsTheMidpoint
  intro cx cy radius w k
  dsimp only
  rcases Int.lt_or_le radius 0 with hr | hr
  · have hstop : circleGoes (circleStart cx cy radius w) = false := decide_eq_false (show ¬radius > 0 by omega)
    rw [circleAfter_done hstop, circleAfter_done hstop]
    simp only [circleStart]
    constructor <;> ring
  · exact ⟨(circleAfter_inv (circleStart_inv .variantA cx cy hr w) k).value,
      (circleAfter_inv (circleStart_inv .variantB cx cy hr w) k).value⟩

/-! ## The points -/

theorem mem_plot4 {cx cy a b : Int} {p : Int × Int} : p ∈ plot4 cx cy a b ↔
    (p.1 - cx = a ∨ p.1 - cx = -a) ∧ (p.2 - cy = b ∨ p.2 - cy = -b) := by
  obtain ⟨x, y⟩ := p
  simp only [plot4, List.mem_cons, List.not_mem_nil, or_false, Prod.mk.injEq]
  omega

@[simp] theorem circleNext_cx (v : CircleStep) (w : Work) : (circleNext v w).cx = w.cx := by
  unfold circleNext; dsimp only; split <;> rfl

@[simp] theorem circleNext_cy (v : CircleStep) (w : Work) : (circleNext v w).cy = w.cy := by
  unfold circleNext; dsimp only; split <;> rfl

@[simp] theorem circleAfter_cx (v : CircleStep) (n : Nat) (w : Work) : (circleAfter v n w).cx = w.cx := by
  rw [circleAfter_fixed]

@[simp] theorem circleAfter_cy (v : CircleStep) (n : Nat) (w : Work) : (circleAfter v n w).cy = w.cy := by
  rw [circleAfter_fixed]

/-- Every top of the loop is plotted eightfold (the converse of `mem_circlePoints`). -/
theorem mem_circlePoints_of_top {v : CircleStep} {n k : Nat} {w : Work} {p : Int × Int} (hk : k < n)
    (hg : circleGoes (circleAfter v k w) = true)
    (hp : p ∈ plot8 w.cx w.cy (circleAfter v k w).x (circleAfter v k w).y) : p ∈ circlePoints v n w := by
  induction n generalizing k w with
  | zero => omega
  | succ n ih =>
    cases hw : circleGoes w with
    | false => rw [circleAfter_done hw, hw] at hg; cases hg
    | true =>
      rw [circlePoints, if_pos hw, List.mem_append]
      cases k with
      | zero => exact .inl hp
      | succ k =>
        simp only [circleAfter, hw, if_true] at hg hp
        exact .inr (ih (k := k) (by omega) hg (by simpa using hp))

/-- Once the loop has ended nothing more happens. -/
theorem circleAfter_of_ended {v : CircleStep} {n k : Nat} {w : Work} (h : circleGoes (circleAfter v n w) = false)
    (hk : n ≤ k) : circleAfter v k w = circleAfter v n w := by
  induction n generalizing k w with
  | zero => exact circleAfter_done h
  | succ n ih =>
    cases hw : circleGoes w with
    | false => rw [circleAfter_done hw, circleAfter_done hw]
    | true =>
      obtain ⟨k, rfl⟩ := Nat.exists_eq_succ_of_ne_zero (by omega : k ≠ 0)
      simp only [circleAfter, hw, if_true] at h ⊢
      exact ih h (by omega)

/-- The end of the loop, where `x = y` or `x = y - 1` (44_rasterizer_circle R180). -/
theorem circleAfter_last {v : CircleStep} {cx cy radius : Int} (hr : 0 ≤ radius) (w : Work) :
    let last := circleAfter v radius.toNat (circleStart cx cy radius w)
    circleGoes last = false ∧ (last.x = last.y ∨ last.x = last.y - 1) := by
  have hends := circleAfter_ends (v := v) radius.toNat (circleStart cx cy radius w)
    (by simp only [circleStart]; omega)
  have happart := (circleAfter_inv (circleStart_inv v cx cy hr w) radius.toNat).apart
  refine ⟨hends, ?_⟩
  simp only [circleGoes, decide_eq_false_iff_not] at hends
  omega

/-- The last four points are eight, up to points already plotted: on the diagonal the exchange changes nothing, and
one past it the loop's last top was the exchanged one. -/
theorem mem_circleDrawn_last {v : CircleStep} {cx cy radius : Int} (hr : 0 ≤ radius) {w : Work} {p : Int × Int}
    (hp : p ∈ plot8 cx cy (circleAfter v radius.toNat (circleStart cx cy radius w)).x
      (circleAfter v radius.toNat (circleStart cx cy radius w)).y) : p ∈ circleDrawn v cx cy radius w := by
  obtain ⟨hends, hxy | hxy⟩ := circleAfter_last (v := v) (cx := cx) (cy := cy) hr w
  · refine List.mem_append_right _ ?_
    simp only [circleAfter_cx, circleAfter_cy]
    rw [hxy] at hp ⊢
    exact (List.mem_append.1 hp).elim id id
  · refine List.mem_append_left _ (circlePoints_last _ _ ?_ hends hxy p hp)
    by_contra hstop
    have hdone := circleAfter_done (v := v) (n := radius.toNat) (Bool.not_eq_true _ ▸ hstop)
    rw [hdone] at hxy
    simp only [circleStart] at hxy
    omega

/-- What CIRCLE plots is the eight images of the loop's tops, the last one included. -/
theorem mem_circleDrawn_iff {v : CircleStep} {cx cy radius : Int} (hr : 0 ≤ radius) {w : Work} {p : Int × Int} :
    p ∈ circleDrawn v cx cy radius w ↔ ∃ k, p ∈ plot8 cx cy
      (circleAfter v k (circleStart cx cy radius w)).x (circleAfter v k (circleStart cx cy radius w)).y := by
  constructor
  · intro h
    rcases List.mem_append.1 h with h | h
    · obtain ⟨k, -, -, hk⟩ := mem_circlePoints h
      exact ⟨k, hk⟩
    · simp only [circleAfter_cx, circleAfter_cy] at h
      exact ⟨radius.toNat, List.mem_append_left _ h⟩
  · rintro ⟨k, hk⟩
    obtain ⟨hends, -⟩ := circleAfter_last (v := v) (cx := cx) (cy := cy) hr w
    rcases Nat.lt_or_ge k radius.toNat with hlt | hge
    · cases hg : circleGoes (circleAfter v k (circleStart cx cy radius w)) with
      | true => exact List.mem_append_left _ (mem_circlePoints_of_top hlt hg hk)
      | false =>
        refine mem_circleDrawn_last hr ?_
        rwa [circleAfter_of_ended hg hlt.le]
    · exact mem_circleDrawn_last hr (circleAfter_of_ended hends hge ▸ hk)

/-- A top of the loop lies within `radius` of the circle, squared (44_rasterizer_circle R178, R180). -/
theorem CircleInv.near {v : CircleStep} {r : Int} {w : Work} (h : CircleInv v r w) :
    |w.x ^ 2 + w.y ^ 2 - r ^ 2| ≤ r := by
  obtain ⟨h1, h2, h3, h4, h5, h6, h7, h8, h9⟩ := h
  rw [abs_le]
  cases v with
  | variantA =>
    have hx := h9 rfl
    dsimp only at h5
    constructor <;> linarith
  | variantB =>
    dsimp only at h5
    constructor <;> linarith

/-! ## The outcome -/

/-- The registers CIRCLE does not have. -/
theorem circle_frame (v : CircleStep) (n : Nat) (cx cy radius : Int) (w : Work) :
    circleAfter v n (circleStart cx cy radius w) = { w with
      cx := (circleAfter v n (circleStart cx cy radius w)).cx
      cy := (circleAfter v n (circleStart cx cy radius w)).cy
      x := (circleAfter v n (circleStart cx cy radius w)).x
      y := (circleAfter v n (circleStart cx cy radius w)).y
      e := (circleAfter v n (circleStart cx cy radius w)).e } := by
  rw [circleAfter_cx, circleAfter_cy]
  exact circleAfter_fixed ..

theorem not_radiusLegal (radius : Int) : (!radiusLegal radius) = decide (radius < 0) := by
  rw [radiusLegal, ← decide_not, decide_eq_decide, not_le]

/-- Settles O42: CIRCLE has no branch that stops. -/
theorem circleCompletesAlways : Obligations.CircleCompletesAlways := by
  unfold Obligations.CircleCompletesAlways
  intro cx cy radius s
  refine ⟨_, circleAfter s.cfg.circleStep radius.toNat (circleStart cx cy radius s.work), ?_,
    fun px py hp => fbGet_plotVisible_iff _ _ hp, fun i hi => read_plotVisible_other _ _ i hi⟩
  rw [← circle_frame, ← not_radiusLegal]
  rfl

/-- What a CIRCLE that runs lights. -/
theorem circle_lights {cx cy radius : Int} {s t : State} (h : exec (.circle cx cy radius) s = .next t) {px py : Int}
    (hp : onScreen px py = true) :
    fbGet t.fb px py = true ↔
      fbGet s.fb px py = true ∨ (px, py) ∈ circleDrawn s.cfg.circleStep cx cy radius s.work := by
  cases h
  exact fbGet_plotVisible_iff _ _ hp

/-- On a blank framebuffer a CIRCLE lights the images of its tops only. -/
theorem circle_lights_blank {cx cy radius : Int} {s t : State} (hr : 0 ≤ radius) (hblank : blank s.fb)
    (h : exec (.circle cx cy radius) s = .next t) {px py : Int} (hp : onScreen px py = true) :
    fbGet t.fb px py = true ↔ ∃ k, (px, py) ∈ plot8 cx cy
      (circleAfter s.cfg.circleStep k (circleStart cx cy radius s.work)).x
      (circleAfter s.cfg.circleStep k (circleStart cx cy radius s.work)).y := by
  rw [circle_lights h hp, hblank px py hp, ← mem_circleDrawn_iff hr]
  simp

/-- Settles O43: the first top of the loop is `(radius, 0)`, whose images are the axis points. -/
theorem circleIncludesItsAxisPoints : Obligations.CircleIncludesItsAxisPoints := by
  unfold Obligations.CircleIncludesItsAxisPoints
  intro cx cy radius s t hr h
  have axis : ∀ px py : Int, (px, py) ∈ plot8 cx cy radius 0 → onScreen px py = true →
      fbGet t.fb px py = true :=
    fun px py hp hon => (circle_lights h hon).2 (.inr ((mem_circleDrawn_iff (by omega)).2 ⟨0, hp⟩))
  refine ⟨axis _ _ ?_, axis _ _ ?_, axis _ _ ?_, axis _ _ ?_⟩ <;> rw [mem_plot8] <;> dsimp only <;> omega

/-- Settles O44: a lit pixel's offset is a top of the loop up to sign and exchange, which squares do not see. -/
theorem circlePixelsLieNearTheCircle : Obligations.CirclePixelsLieNearTheCircle := by
  unfold Obligations.CirclePixelsLieNearTheCircle
  intro cx cy radius s t hr hblank h px py hp hlit
  obtain ⟨k, hk⟩ := (circle_lights_blank hr hblank h hp).1 hlit
  have hnear := (circleAfter_inv (circleStart_inv s.cfg.circleStep cx cy hr s.work) k).near
  rcases mem_plot8.1 hk with ⟨hx, hy⟩ | ⟨hx, hy⟩
  · rwa [sq_eq_sq_iff_eq_or_eq_neg.2 hx, sq_eq_sq_iff_eq_or_eq_neg.2 hy]
  · rwa [sq_eq_sq_iff_eq_or_eq_neg.2 hx, sq_eq_sq_iff_eq_or_eq_neg.2 hy, add_comm]

/-- Settles O45: each of the eight points of a top has the other seven images beside it. -/
theorem circleIsEightfoldSymmetric : Obligations.CircleIsEightfoldSymmetric := by
  unfold Obligations.CircleIsEightfoldSymmetric
  intro cx cy radius s t hr hblank h a b hon hlit
  obtain ⟨k, hk⟩ := (circle_lights_blank hr hblank h hon).1 hlit
  rw [mem_plot8] at hk
  have image : ∀ px py : Int, (px, py) ∈ plot8 cx cy
      (circleAfter s.cfg.circleStep k (circleStart cx cy radius s.work)).x
      (circleAfter s.cfg.circleStep k (circleStart cx cy radius s.work)).y →
      onScreen px py = true → fbGet t.fb px py = true :=
    fun px py hp hon => (circle_lights_blank hr hblank h hon).2 ⟨k, hp⟩
  refine ⟨image _ _ ?_, image _ _ ?_, image _ _ ?_, image _ _ ?_, image _ _ ?_, image _ _ ?_, image _ _ ?_⟩ <;>
    rw [mem_plot8] <;> dsimp only at hk ⊢ <;> omega

/-- Settles O48: with no iteration the last four points are two, on the centre's row. -/
theorem negativeRadiusLightsTwoPoints : Obligations.NegativeRadiusLightsTwoPoints := by
  unfold Obligations.NegativeRadiusLightsTwoPoints
  intro cx cy radius s hr
  have hdrawn : circleDrawn s.cfg.circleStep cx cy radius s.work = plot4 cx cy radius 0 := by
    rw [circleDrawn, circleAfter_of_neg hr, Int.toNat_of_nonpos hr.le]
    rfl
  refine ⟨_, rfl, ?_, fun px py hp => (circle_lights rfl hp).trans (or_congr_right ?_)⟩
  · simp [radiusLegal, hr]
  · rw [hdrawn, mem_plot4]
    dsimp only
    omega

end Sys2Proof.Machine
end

section
/-! Refresh Pump: the 1152 frames of REFRESH and the registers it writes (45_refresh_pump R190 to R194). -/

namespace Sys2Proof.Machine

/-! ## The frames -/

theorem refreshItems_length (c : Config) (m : Memory) : (refreshItems c m).length = 1152 := by
  simp [refreshItems, refreshRowItems, List.length_flatMap]

/-- REFRESH emits frames and nothing else. -/
theorem refreshItems_frames (c : Config) (m : Memory) : ∀ j ∈ refreshItems c m, ∃ k v, j = Item.frame k v := by
  intro j hj
  obtain ⟨row, -, hj⟩ := List.mem_flatMap.1 hj
  rcases List.mem_append.1 hj with hj | hj
  · rcases List.mem_pair.1 hj with rfl | rfl <;> exact ⟨_, _, rfl⟩
  · obtain ⟨col, -, rfl⟩ := List.mem_map.1 hj
    exact ⟨_, _, rfl⟩

/-- Items that are all frames are as many as their frames. -/
theorem framesOf_length {is : List Item} (h : ∀ j ∈ is, ∃ k v, j = Item.frame k v) :
    (framesOf is).length = is.length := by
  induction is with
  | nil => rfl
  | cons i is ih =>
    obtain ⟨k, v, rfl⟩ := h i (List.mem_cons_self ..)
    exact congrArg (· + 1) (ih fun j hj => h j (List.mem_cons_of_mem _ hj))

@[simp] theorem transfers_refreshActs (c : Config) (m : Memory) : transfers (refreshActs c m) = 3456 := by
  rw [(framedAs_refresh c m).2, framesOf_length (refreshItems_frames c m), refreshItems_length]

/-- The data bytes among some items, in order. -/
def dataBytes (is : List Item) : List Byte :=
  (framesOf is).filterMap fun f => if f.1 = .data then some f.2 else none

theorem dataBytes_flatMap {α : Type} (l : List α) (f : α → List Item) :
    dataBytes (l.flatMap f) = l.flatMap fun a => dataBytes (f a) := by
  simp only [dataBytes, framesOf, List.filterMap_flatMap]

theorem dataBytes_refreshRow (c : Config) (m : Memory) (row : Nat) :
    dataBytes (refreshRowItems c m row) = (List.range 16).map fun col => m.read (row * 16 + col) := by
  simp [dataBytes, framesOf, refreshRowItems, List.filterMap_map]

/-- Rows of equal length, one after the other, count through their numbers. -/
theorem flatMap_range_rows {α : Type} (f : Nat → α) (rows width : Nat) :
    ((List.range rows).flatMap fun row => (List.range width).map fun col => f (row * width + col)) =
      (List.range (rows * width)).map f := by
  induction rows with
  | zero => simp
  | succ rows ih =>
    rw [List.range_succ, List.flatMap_append, ih, Nat.succ_mul, List.range_add]
    simp [Function.comp_def]

/-- The 64 rows of sixteen bytes are the framebuffer in order (45_refresh_pump R194). -/
theorem dataBytes_refreshItems (c : Config) (m : Memory) :
    dataBytes (refreshItems c m) = (List.range 1024).map m.read := by
  simp only [refreshItems, dataBytes_flatMap, dataBytes_refreshRow]
  exact flatMap_range_rows m.read 64 16

/-! ## The registers -/

/-- A step that writes none but the framer's registers and the two counters. -/
def Act.framesOnly : Act → Bool
  | .addr _ => false
  | _ => true

theorem foldl_onWork_framesOnly (acts : List Act) (w : Work) (h : ∀ a ∈ acts, a.framesOnly = true) :
    acts.foldl Act.onWork w = { w with
      fsync := (acts.foldl Act.onWork w).fsync
      fval := (acts.foldl Act.onWork w).fval
      fidx := (acts.foldl Act.onWork w).fidx
      row := (acts.foldl Act.onWork w).row
      col := (acts.foldl Act.onWork w).col } := by
  induction acts generalizing w with
  | nil => rfl
  | cons a rest ih =>
    rw [List.foldl_cons, ih _ fun b hb => h b (List.mem_cons_of_mem _ hb)]
    have ha := h a (List.mem_cons_self ..)
    cases a <;> first | exact Bool.noConfusion ha | rfl

theorem refreshActs_framesOnly (c : Config) (m : Memory) : ∀ a ∈ refreshActs c m, a.framesOnly = true := by
  intro a ha
  rcases mem_refreshActs ha with ⟨s, v, h⟩ | ⟨_, -, rfl⟩ | ⟨_, -, rfl⟩
  · simp only [frameActs, List.mem_cons, List.not_mem_nil, or_false] at h
    rcases h with rfl | rfl | rfl | rfl | rfl <;> rfl
  · rfl
  · rfl

theorem foldl_onMode_refresh (c : Config) (m : Memory) (mode : Mode) :
    (refreshActs c m).foldl Act.onMode mode = mode := by
  rcases program_onMode .refresh c m 0 mode with h | ⟨h, -⟩ | ⟨h, -⟩
  · exact h
  · cases h
  · cases h

/-! ## The outcome -/

/-- REFRESH whose transfers the bus allows. -/
theorem exec_refresh {s : State} (hb : s.busAllows 3456 = true) :
    exec .refresh s = .next { s with
      trace := s.trace ++ (refreshActs s.cfg s.fb).filterMap Act.event
      work := (refreshActs s.cfg s.fb).foldl Act.onWork s.work
      bus := s.bus.map (· - 3456)
      seq := .idle
      inFlight := none
      contracts := { s.contracts with mode := s.contracts.mode || s.mode != .graphics } } := by
  have hall : s.busAllows (transfers (program .refresh s.cfg s.fb)) = true := by
    rwa [program, transfers_refreshActs]
  have hline := foldl_onLine_of_keeps _ s.rstLine (program_keeps_line (op := .refresh) nofun s.cfg s.fb)
  rw [program] at hline
  rw [exec_complete (i := .refresh) rfl hall, program, runActs_eq, transfers_refreshActs, noted_mode,
    foldl_onMode_refresh, noted_rstLine, hline]
  generalize refreshActs s.cfg s.fb = acts -- else `rfl` would unfold the 1152 frames
  rfl

/-- Settles O49: the events of REFRESH's program are the frames of `refreshItems`, numbered row by row. -/
theorem refreshSendsItsFrames : Obligations.RefreshSendsItsFrames := by
  unfold Obligations.RefreshSendsItsFrames
  refine ⟨decode_commandWord_refresh, fun s hb => ?_⟩
  obtain ⟨hitems, htransfers⟩ := framedAs_refresh s.cfg s.fb
  obtain ⟨hcount, hlength, htime⟩ := items_frames_count s.cfg _ _ hitems (refreshItems_frames s.cfg s.fb)
  rw [refreshItems_length] at hcount hlength htime
  refine ⟨_, _, (refreshActs s.cfg s.fb).foldl Act.onWork s.work, ?_, hitems, refreshItems_length .., ?_, hcount,
    hlength, htime, fun row hrow => ⟨?_, ?_, fun col hcol => ?_⟩⟩
  · rw [← foldl_onWork_framesOnly _ _ (refreshActs_framesOnly s.cfg s.fb)]
    exact exec_refresh hb
  · rw [bytesOf_events_length, transfers_refreshActs]
  · exact refreshItems_get s.cfg s.fb row hrow 0 (by omega)
  · exact refreshItems_get s.cfg s.fb row hrow 1 (by omega)
  · rw [Nat.add_assoc, refreshItems_get s.cfg s.fb row hrow (2 + col) (by omega), refreshRowItems, Nat.add_comm 2]
    simp [hcol, Nat.mul_comm]

/-- Settles O50: the data frames of a row carry its sixteen bytes, and the rows follow each other. -/
theorem refreshSendsEveryByteOnce : Obligations.RefreshSendsEveryByteOnce := by
  unfold Obligations.RefreshSendsEveryByteOnce
  intro s t hb h
  rw [exec_refresh hb] at h
  cases h
  exact ⟨_, _, rfl, (framedAs_refresh s.cfg s.fb).1, dataBytes_refreshItems s.cfg s.fb⟩

end Sys2Proof.Machine
end

section
/-! Waiting for the bus: where a hanging command stands, that it stands there until the environment moves, and that it
goes on as if it had never waited; what no step or outcome depends on (10_state R27 to R36, R39, 60_exceptions R204). -/

namespace Sys2Proof.Machine

/-! ## A command that hangs -/

/-- The one kind of step that uses the bus. -/
theorem eq_byte_of_transfer {a : Act} (h : a.transfer.isSome = true) : ∃ k v, a = .byte k v := by
  cases a <;> first | exact Bool.noConfusion h | exact ⟨_, _, rfl⟩

/-- An instruction that leaves an idle block busy stands before one of its program's transfers, the bus used up. -/
theorem exec_waits {i : Instr} {s t : State} (hs : s.seq = .idle) (h : exec i s = .next t) (ht : t.seq ≠ .idle) :
    usesBus i = true ∧ ∃ pre k v post, program i s.cfg s.fb = pre ++ .byte k v :: post ∧
      s.bus = some (transfers pre) ∧
      t = { runActs pre (noted i s) with seq := .busy i pre.length, inFlight := some v } := by
  cases hu : usesBus i with
  | true =>
    refine ⟨rfl, ?_⟩
    rw [exec_bus hu] at h
    cases h
    rcases proceed_cases (noted i s) i 0 (program i s.cfg s.fb) with ⟨-, he⟩ | ⟨pre, a, post, hp, ha, hb, he⟩
    · exact absurd (by rw [he]) ht
    · obtain ⟨k, v, rfl⟩ := eq_byte_of_transfer ha
      exact ⟨pre, k, v, post, hp, by rw [← hb, noted_bus], by rw [he, Nat.zero_add]; rfl⟩
  | false =>
    obtain ⟨m, w, c, rfl, -⟩ := exec_draw_frame hu h
    exact absurd hs ht

/-- Settles O51: the steps done are those before a transfer, which no write of `MODE` precedes. -/
theorem hungCommandLeavesAPrefix : Obligations.HungCommandLeavesAPrefix := by
  unfold Obligations.HungCommandLeavesAPrefix
  intro i s t hs h ht
  obtain ⟨hu, pre, k, v, post, hp, hb, rfl⟩ := exec_waits hs h ht
  have hline := foldl_applyAct_rstLine pre (noted i s)
  rw [noted_rstLine] at hline
  have hall := exec_complete (s := { s with bus := none }) hu rfl
  refine ⟨by simp, ?_, by simp [foldl_applyAct_bus, hb], fun hi => ?_, fun hi => ?_, pre.length, v,
    pre.filterMap Act.event, _, rfl, rfl, by simp, by rw [bytesOf_events_length, hb], hall, rfl, ?_⟩
  · exact (runActs_mode_before_transfer hp rfl _).trans (noted_mode i s)
  · exact hline.trans (foldl_onLine_of_keeps _ _ fun a ha =>
      program_keeps_line hi s.cfg s.fb a (by rw [hp]; exact List.mem_append_left _ ha))
  · subst hi
    exact hline.trans (reset_line_before_transfer hp rfl _)
  · simp only [runActs_trace, noted_trace, hp, List.filterMap_append, List.append_assoc]
    exact (List.prefix_append_right_inj _).2 ((List.prefix_append_right_inj _).2 ⟨post.filterMap Act.event, rfl⟩)

/-! ## A block that waits -/

/-- With no completion left nothing of a command is done before its transfer. -/
theorem resume_eq_self {s : State} {op : Instr} {n : Nat} (hs : s.seq = .busy op n) (hok : s.seqOk = true) :
    s.resume op n = s := by
  simp only [State.seqOk, hs] at hok
  split at hok
  · cases hok
  · rename_i a ha
    simp only [Bool.and_eq_true, beq_iff_eq] at hok
    obtain ⟨⟨htransfer, hflight⟩, hbus⟩ := hok
    obtain ⟨rest, hrest⟩ : ∃ rest, (program op s.cfg s.fb).drop n = a :: rest :=
      ⟨_, List.drop_eq_getElem?_toList_append.trans (by rw [ha]; rfl)⟩
    obtain ⟨k, v, rfl⟩ := eq_byte_of_transfer htransfer
    have hreach : reach (some 0) (Act.byte k v :: rest) = 0 := rfl
    rw [State.resume, State.proceed, hrest, hbus, hreach, advance_eq]
    ext1 <;> simp [seqAfter, inFlightAfter, hs, hflight, hbus]

/-- Settles O52: with words only there is no event to serve, and the poll leaves the block where it waits. -/
theorem waitingBlockStays : Obligations.WaitingBlockStays := by
  unfold Obligations.WaitingBlockStays
  intro s hok hbusy hwords
  obtain ⟨op, n, hs⟩ : ∃ op n, s.seq = .busy op n := by
    cases hs : s.seq with
    | idle => exact absurd hs hbusy
    | busy op n => exact ⟨op, n, rfl⟩
  simp only [step, hs, State.busyStep, takeEvent_none_iff.2 hwords, resume_eq_self hs hok]

/-- A waiting block serves an event that stands first. -/
theorem step_busy_event {s : State} {op : Instr} {n : Nat} {ev : Input} {rest : List Input} (hs : s.seq = .busy op n)
    (hi : s.inputs = ev :: rest) (hev : ev.carried = none) :
    step s = .next ({ s with inputs := rest }.event op n ev) := by
  simp [step, hs, State.busyStep, hi, takeEvent, hev]

/-- Acceptance does not look at the bus. -/
theorem noted_setBus (i : Instr) (s : State) (b : Option Nat) :
    noted i { s with bus := b } = { noted i s with bus := b } := by
  cases i <;> rfl

/-- Completed steps use up completions, whatever else they do. -/
theorem runActs_setBus (acts : List Act) (s : State) (b : Option Nat) :
    runActs acts { s with bus := b } = { runActs acts s with bus := b.map (· - transfers acts) } := by
  rw [runActs_eq, runActs_eq]

/-- Settles O53: the granted waiting block is what the whole run is after the steps before the wait, and going on from
there is the rest of that run (`proceed_append`). -/
theorem waitingChangesNothing : Obligations.WaitingChangesNothing := by
  unfold Obligations.WaitingChangesNothing
  intro i s t first more n hs h hbusy
  obtain ⟨hu, pre, k, v, post, hp, hb, ht⟩ :=
    exec_waits (s := { s with bus := some first }) hs h (by rw [hbusy]; nofun)
  obtain rfl : pre.length = n := by rw [ht] at hbusy; cases hbusy; rfl
  obtain rfl : first = transfers pre := by cases hb; rfl
  replace hp : program i s.cfg s.fb = pre ++ .byte k v :: post := hp
  have hgrant : t.grant more = { runActs pre (noted i { s with bus := some (transfers pre + more) }) with
      seq := .busy i pre.length, inFlight := some v } := by
    rw [ht, noted_setBus i s (some (transfers pre)), noted_setBus i s (some (transfers pre + more)),
      runActs_setBus pre (noted i s) (some (transfers pre)),
      runActs_setBus pre (noted i s) (some (transfers pre + more))]
    simp [State.grant]
  have hsame : t.cfg = s.cfg ∧ t.fb = s.fb := by rw [ht]; simp
  have hstep := step_busy_event (s := { t with inputs := .busReady more :: t.inputs }) hbusy rfl rfl
  calc step { t with inputs := .busReady more :: t.inputs }
      = .next ((t.grant more).resume i pre.length) := hstep
    _ = .next ((t.grant more).proceed i pre.length (.byte k v :: post)) := by
        rw [State.resume, grant_cfg, grant_fb, hsame.1, hsame.2, hp, List.drop_left]
    _ = exec i { s with bus := some (transfers pre + more) } := by
        rw [exec_bus hu, hp, proceed_append (j := more) (by rw [noted_bus]) i 0 _ (.busy i pre.length) (some v),
          hgrant, Nat.zero_add]

/-- Settles O54: while busy a step serves an event, which leaves the words, and goes on with a command on the pins. -/
theorem busyBlockAcceptsNoWord : Obligations.BusyBlockAcceptsNoWord := by
  unfold Obligations.BusyBlockAcceptsNoWord
  intro s t hbusy h
  cases step_next h with
  | still hs | grant hs | idleCut hs | word hs | wordCut hs => exact absurd hs hbusy
  | pin _ hw => exact ⟨hw hbusy, rfl⟩
  | poll => simp [State.resume]
  | ready _ hi => simp [State.resume, (takeEvent_words hi).1]
  | readyCut _ hi => simp [State.resumeWithin, (takeEvent_words hi).1]

/-! ## What never changes and what is never observed -/

/-- Settles O55: the power-on state is one closed state, its framebuffer the empty list. -/
theorem powerOnState : Obligations.PowerOnState :=
  ⟨rfl, rfl, rfl, rfl, rfl, fun _ => rfl⟩

/-- An instruction takes nothing from the inputs and writes no parameter (10_state R29). -/
theorem exec_cfg_inputs {i : Instr} {s t : State} (h : exec i s = .next t) : t.cfg = s.cfg ∧ t.inputs = s.inputs := by
  cases hu : usesBus i with
  | true =>
    rw [exec_bus hu] at h
    cases h
    simp
  | false =>
    obtain ⟨m, w, c, rfl, -⟩ := exec_draw_frame hu h
    exact ⟨rfl, rfl⟩

/-- What `rst_n` inside or after a command leaves behind it (70_reset R230, R231). -/
theorem execCut_frame {i : Instr} {k : Nat} {s t : State} (h : execCut i k s = .next t) :
    t.mode = .uninitialized ∧ t.seq = .idle ∧ t.inFlight = none ∧ t.cfg = s.cfg ∧ t.inputs = s.inputs := by
  rcases execCut_next h with ⟨-, m, -, rfl⟩ | ⟨-, u, hu, rfl⟩
  · simp
  · exact ⟨rfl, rfl, rfl, (exec_cfg_inputs hu :)⟩

/-- Settles O57: no kind of step writes the configuration. -/
theorem parametersNeverChange : Obligations.ParametersNeverChange := by
  unfold Obligations.ParametersNeverChange
  intro s t h
  cases step_next h with
  | still | grant | pin | idleCut => rfl
  | poll | ready => simp [State.resume]
  | readyCut => simp [State.resumeWithin]
  | word _ _ _ he => exact (exec_cfg_inputs he).1
  | wordCut _ _ _ he =>
    obtain ⟨-, -, -, hcfg, -⟩ := execCut_frame he
    exact hcfg

/-- The registers LINE's loop reads. -/
def lineView (w : Work) : Work :=
  { Work.reset with
    steep := w.steep, deltax := w.deltax, deltay := w.deltay, err := w.err, ystep := w.ystep, x := w.x, y := w.y }

theorem lineNext_lineView (w : Work) : lineNext (lineView w) = lineView (lineNext w) := by
  by_cases h : w.err - w.deltay < 0 <;> simp [lineNext, lineView, h]

theorem linePoints_lineView (n : Nat) (w : Work) : linePoints n (lineView w) = linePoints n w := by
  induction n generalizing w with
  | zero => rfl
  | succ n ih => rw [linePoints, lineNext_lineView, ih]; rfl

/-- The points of a LINE are its operands' alone. -/
theorem lineDrawn_work (x0 y0 x1 y1 : Int) (w w' : Work) : lineDrawn x0 y0 x1 y1 w = lineDrawn x0 y0 x1 y1 w' := by
  have hview : lineView (lineStart x0 y0 x1 y1 w) = lineView (lineStart x0 y0 x1 y1 w') := rfl
  simp only [lineDrawn, lineCount_eq]
  rw [← linePoints_lineView, hview, linePoints_lineView]

/-- The registers CIRCLE's loop reads. -/
def circleView (w : Work) : Work :=
  { Work.reset with cx := w.cx, cy := w.cy, x := w.x, y := w.y, e := w.e }

theorem circleNext_circleView (v : CircleStep) (w : Work) :
    circleNext v (circleView w) = circleView (circleNext v w) := by
  by_cases h : 0 ≤ w.e + 2 * w.y + 1 <;> simp [circleNext, circleView, h]

theorem circlePoints_circleView (v : CircleStep) (n : Nat) (w : Work) :
    circlePoints v n (circleView w) = circlePoints v n w := by
  induction n generalizing w with
  | zero => rfl
  | succ n ih => rw [circlePoints, circleNext_circleView, ih]; rfl

theorem circleAfter_circleView (v : CircleStep) (n : Nat) (w : Work) :
    circleAfter v n (circleView w) = circleView (circleAfter v n w) := by
  induction n generalizing w with
  | zero => rfl
  | succ n ih =>
    have hgoes : circleGoes (circleView w) = circleGoes w := rfl
    simp only [circleAfter, hgoes, circleNext_circleView, ih]
    split <;> rfl

/-- The points of a CIRCLE are its operands' and the variant's alone. -/
theorem circleDrawn_work (v : CircleStep) (cx cy radius : Int) (w w' : Work) :
    circleDrawn v cx cy radius w = circleDrawn v cx cy radius w' := by
  have hdrawn : ∀ u : Work, circleDrawn v cx cy radius u =
      circlePoints v radius.toNat (circleView (circleStart cx cy radius u)) ++
        plot4 cx cy (circleAfter v radius.toNat (circleView (circleStart cx cy radius u))).x
          (circleAfter v radius.toNat (circleView (circleStart cx cy radius u))).y := by
    intro u
    rw [circlePoints_circleView, circleAfter_circleView, circleDrawn, circleAfter_cx, circleAfter_cy]
    rfl
  rw [hdrawn w, hdrawn w']
  rfl

/-- Settles O58: a bus instruction's course reads no working register, and a drawing instruction loads its own before
its loop. -/
theorem workRegistersAreNeverObserved : Obligations.WorkRegistersAreNeverObserved := by
  unfold Obligations.WorkRegistersAreNeverObserved
  intro i s w
  cases hu : usesBus i with
  | true =>
    rw [exec_bus_eq hu, exec_bus_eq hu]
    exact ⟨rfl, rfl, rfl, rfl, rfl, rfl, noted_contracts_congr i rfl rfl, rfl, rfl, rfl⟩
  | false =>
    cases i
    case fbClear | fbSetChecked => exact ⟨rfl, rfl, rfl, rfl, rfl, rfl, rfl, rfl, rfl, rfl⟩
    case fbSet x y =>
      simp only [exec, execFbSet]
      split
      · exact ⟨rfl, rfl, rfl, rfl, rfl, rfl, rfl, rfl, rfl, rfl⟩
      · rfl
    case line x0 y0 x1 y1 =>
      simp only [exec, execLine, lineDrawn_work x0 y0 x1 y1 w s.work]
      split
      · exact ⟨rfl, rfl, rfl, rfl, rfl, rfl, rfl, rfl, rfl, rfl⟩
      · rfl
    case circle cx cy radius =>
      simp only [exec, execCircle, circleDrawn_work s.cfg.circleStep cx cy radius w s.work]
      exact ⟨rfl, rfl, rfl, rfl, rfl, rfl, rfl, rfl, rfl, rfl⟩
    all_goals cases hu

end Sys2Proof.Machine
end

section
/-! The invariant of the whole machine: memory and registers by what a command writes, sequencer and trace by going on
with a command's steps (`resume_inv`), and every kind of step from these (10_state R27, R30, R36, 40_bus R117). -/

namespace Sys2Proof.Machine

/-! ## The working registers of the drawing commands -/

/-- LINE's registers fit from any operands of a word (10_state R31). -/
theorem line_fits {x0 y0 x1 y1 : Int} (hwf : (Instr.line x0 y0 x1 y1).wf = true) {w : Work}
    (hw : w.fits = true) :
    (lineAfter (lineCount (lineStart x0 y0 x1 y1 w)) (lineStart x0 y0 x1 y1 w)).fits = true := by
  have hr := lineAfter_range hwf w le_rfl
  have hy := (lineStart_init x0 y0 x1 y1 w).ystep
  obtain ⟨-, -, -, hcx, hcy, he, hrow, hcol, -⟩ := line_frame (lineCount (lineStart x0 y0 x1 y1 w)) x0 y0 x1 y1 w
  simp only [List.forall_mem_cons, List.not_mem_nil, false_implies, implies_true, and_true] at hr
  simp only [Work.fits, fits18, Bool.and_eq_true, decide_eq_true_eq, hcx, hcy, he, hrow, hcol, lineAfter_ystep] at hw ⊢
  omega

/-- CIRCLE's registers fit from any operands of a word (10_state R31). -/
theorem circle_fits (v : CircleStep) {cx cy radius : Int} (hwf : (Instr.circle cx cy radius).wf = true) {w : Work}
    (hw : w.fits = true) : (circleAfter v radius.toNat (circleStart cx cy radius w)).fits = true := by
  obtain ⟨hx, hy, he⟩ := circleAfter_bounds v cx cy radius w
  rw [circleAfter_fixed]
  generalize circleAfter v radius.toNat (circleStart cx cy radius w) = r at *
  simp only [Instr.wf, fitsField, Bool.and_eq_true, decide_eq_true_eq] at hwf
  unfold circleStart
  simp only [Work.fits, fits18, Bool.and_eq_true, decide_eq_true_eq] at hw ⊢
  omega

/-- The invariant of an idle block: nothing in flight, and a trace of whole frames as it stands. -/
theorem inv_iff_of_idle {s : State} (hs : s.seq = .idle) :
    s.Inv ↔ s.fb.wf = true ∧ s.work.fits = true ∧ s.inFlight = none ∧
      (s.contracts.abandoned = true ∨ (items s.trace).isSome = true) := by
  simp [State.Inv, State.seqOk, State.framed, State.pendingEvents, hs]

/-! ## Going on with a command -/

/-- What a command's remaining steps will add makes the trace whole frames, unless a pin cut one short. -/
def State.framedBy (s : State) (acts : List Act) : Prop :=
  s.contracts.abandoned = true ∨ (items (s.trace ++ acts.filterMap Act.event)).isSome = true

theorem framed_iff (s : State) :
    s.framed = true ↔ s.contracts.abandoned = true ∨ (items (s.trace ++ s.pendingEvents)).isSome = true := by
  simp [State.framed]

/-- A bus instruction goes on with its program from the start. -/
theorem exec_bus_resume {i : Instr} (h : usesBus i = true) (s : State) :
    exec i s = .next ((noted i s).resume i 0) := by
  rw [exec_bus h, State.resume, noted_cfg, noted_fb, List.drop_zero]

/-- Running a command on, to its end or to a wait, meets the invariant if its steps will complete the trace. -/
theorem resume_inv {s : State} {op : Instr} {n : Nat} (hm : s.fb.wf = true) (hw : s.work.fits = true)
    (hf : s.framedBy ((program op s.cfg s.fb).drop n)) : (s.resume op n).Inv := by
  have hfits : (s.resume op n).work.fits = true := by
    have h := proceedWithin_fits (op := op) (j := n) rfl hw n (reach s.bus ((program op s.cfg s.fb).drop n))
    rwa [State.proceedWithin, min_self] at h
  refine ⟨by rwa [State.resume, proceed_fb], hfits, ?_⟩
  unfold State.resume
  rcases proceed_cases s op n ((program op s.cfg s.fb).drop n) with ⟨-, he⟩ | ⟨pre, a, post, hp, ha, hb, he⟩
  · refine ⟨by rw [he]; rfl, (framed_iff _).2 ?_⟩
    rw [he]
    simpa [State.pendingEvents, State.framedBy] using hf
  · have hrest : (program op s.cfg s.fb).drop (n + pre.length) = a :: post := by
      rw [← List.drop_drop, hp, List.drop_left]
    refine ⟨?_, (framed_iff _).2 ?_⟩
    · have hget : (program op s.cfg s.fb)[n + pre.length]? = some a := by
        rw [← List.head?_drop, hrest, List.head?_cons]
      rw [he]
      simp [State.seqOk, hget, ha, foldl_applyAct_bus, hb]
    · rw [State.framedBy, hp] at hf
      rw [he]
      simpa [State.pendingEvents, hrest] using hf

/-- The pin meets the invariant if an idle block's trace was whole frames: a busy one is recorded as abandoned. -/
theorem blockReset_inv {s : State} (hm : s.fb.wf = true) (hw : s.work.fits = true)
    (hf : s.seq = .idle → s.contracts.abandoned = true ∨ (items s.trace).isSome = true) : s.blockReset.Inv := by
  refine (inv_iff_of_idle rfl).2 ⟨hm, hw, rfl, ?_⟩
  cases hs : s.seq with
  | idle => simpa [State.busy, hs] using hf hs
  | busy op n => simp [State.busy, hs]

/-- What the invariant says of a waiting command's steps still to come. -/
theorem State.Inv.framedBy_of_busy {s : State} (h : s.Inv) {op : Instr} {n : Nat} (hs : s.seq = .busy op n) :
    s.framedBy ((program op s.cfg s.fb).drop n) := by
  obtain ⟨-, -, -, hf⟩ := h
  simpa [State.pendingEvents, State.framedBy, hs] using (framed_iff s).1 hf

/-- What the invariant says of an idle block's trace. -/
theorem State.Inv.items_of_idle {s : State} (h : s.Inv) (hs : s.seq = .idle) :
    s.contracts.abandoned = true ∨ (items s.trace).isSome = true := by
  obtain ⟨-, -, -, hitems⟩ := (inv_iff_of_idle hs).1 h
  exact hitems

/-! ## Every kind of step -/

/-- A bus instruction accepted by an idle block adds whole frames to whole frames. -/
theorem exec_bus_inv {i : Instr} {s t : State} (hu : usesBus i = true) (h : s.Inv) (hs : s.seq = .idle)
    (he : exec i s = .next t) : t.Inv := by
  obtain ⟨hm, hw, -, hitems⟩ := (inv_iff_of_idle hs).1 h
  rw [exec_bus_resume hu] at he
  cases he
  refine resume_inv (by simpa) (by simpa) ?_
  obtain ⟨is, ⟨his, -⟩, -⟩ := program_items i s.cfg s.fb
  obtain ⟨-, -, -, -, hab⟩ := noted_keeps i s
  rcases hitems with ha | ht
  · exact .inl (by rw [hab, ha])
  · obtain ⟨js, hjs⟩ := Option.isSome_iff_exists.mp ht
    refine .inr ?_
    simp only [noted_cfg, noted_fb, noted_trace, List.drop_zero, items_append hjs his, Option.isSome_some]

/-- A drawing instruction that completes leaves the working registers in their ranges. -/
theorem exec_draw_fits {i : Instr} {s t : State} (hu : usesBus i = false) (hwf : i.wf = true)
    (hw : s.work.fits = true) (he : exec i s = .next t) : t.work.fits = true := by
  rcases exec_draw hu he with ⟨-, rfl⟩ | ⟨x, y, -, rfl⟩ | ⟨x0, y0, x1, y1, rfl, rfl⟩ | ⟨cx, cy, r, rfl, rfl⟩
  · exact hw
  · exact hw
  · exact line_fits hwf hw
  · exact circle_fits _ hwf hw

/-- A drawing instruction accepted by an idle block leaves it idle, its trace as it was. -/
theorem exec_draw_inv {i : Instr} {s t : State} (hu : usesBus i = false) (hwf : i.wf = true) (h : s.Inv)
    (hs : s.seq = .idle) (he : exec i s = .next t) : t.Inv := by
  obtain ⟨hm, hw, hfl, hitems⟩ := (inv_iff_of_idle hs).1 h
  have hfit := exec_draw_fits hu hwf hw he
  obtain ⟨m, w, c, rfl, -, -, hab, -, -, hfb⟩ := exec_draw_frame hu he
  have hmem : m.wf = true := by
    rcases hfb with ⟨h0, -⟩ | ⟨points, h0⟩
    · rw [h0, zeroed_wf]
    · rw [h0, plotVisible_wf _ _ hm]
  exact (inv_iff_of_idle (by exact hs)).2 ⟨hmem, hfit, hfl, by rwa [hab]⟩

/-- A command accepted by an idle block that meets the invariant. -/
theorem exec_inv {i : Instr} {s t : State} (hwf : i.wf = true) (h : s.Inv) (hs : s.seq = .idle)
    (he : exec i s = .next t) : t.Inv := by
  cases hu : usesBus i with
  | true => exact exec_bus_inv hu h hs he
  | false => exact exec_draw_inv hu hwf h hs he

/-- A command that `rst_n` cuts short, or meets at its end. -/
theorem execCut_inv {i : Instr} {k : Nat} {s t : State} (hwf : i.wf = true) (h : s.Inv) (hs : s.seq = .idle)
    (he : execCut i k s = .next t) : t.Inv := by
  rcases execCut_next he with ⟨hk, m, hpart, rfl⟩ | ⟨-, u, hu, rfl⟩
  · obtain ⟨hm, hw, -, -⟩ := h
    refine blockReset_inv (partialFb_wf hk hpart hm) ?_ nofun
    exact proceedWithin_fits (s := s.accepted i) (op := i) (j := 0) (by simp) (by simpa using hw) 0 k
  · have hui := exec_inv hwf h hs hu
    have ⟨hm, hw, _, _⟩ := hui
    exact blockReset_inv hm hw hui.items_of_idle

/-- A waiting command that goes on for some steps, until `rst_n` lands. -/
theorem resumeWithin_blockReset_inv {s : State} {op : Instr} {n : Nat} (hm : s.fb.wf = true)
    (hw : s.work.fits = true) (hf : s.framedBy ((program op s.cfg s.fb).drop n)) (k : Nat) :
    (s.resumeWithin op n k).blockReset.Inv := by
  unfold State.resumeWithin
  refine blockReset_inv (by simpa) (proceedWithin_fits rfl hw n k) fun hidle => ?_
  have hall := (advance_seq_idle_iff ..).1 hidle
  rwa [proceedWithin_trace, List.take_of_length_le hall, proceedWithin_contracts]

/-- What is still to come in is no part of the invariant. -/
theorem State.Inv.withInputs {s : State} (h : s.Inv) (l : List Input) : State.Inv { s with inputs := l } := h

/-- Settles O60: by the kinds of steps (`step_next`), an executed word by `exec_inv` and `execCut_inv`, a waiting
command by `resume_inv`, a pin by `blockReset_inv`. -/
theorem stepKeepsInvariant : Obligations.StepKeepsInvariant := by
  unfold Obligations.StepKeepsInvariant
  intro s t h hstep
  have hdec : ∀ {e : Encoded} {i : Instr}, decode e = .ok i → i.wf = true := decodedInstructionsAreWellFormed _ _
  have ⟨hm, hw, _, _⟩ := h
  cases step_next hstep with
  | still hs hi => exact h
  | grant hs hi => exact (inv_iff_of_idle (by exact hs)).2 ((inv_iff_of_idle hs).1 h)
  | pin => exact blockReset_inv hm hw h.items_of_idle
  | idleCut hs hi => exact blockReset_inv hm hw fun _ => h.items_of_idle hs
  | poll hs hi => exact resume_inv hm hw (h.framedBy_of_busy hs)
  | ready hs hi => exact resume_inv hm hw (h.framedBy_of_busy hs)
  | readyCut hs hi =>
    refine resumeWithin_blockReset_inv ?_ ?_ ?_ _
    exacts [hm, hw, h.framedBy_of_busy hs]
  | word hs hi hd he => exact exec_inv (hdec hd) (by exact h.withInputs _) (by exact hs) he
  | wordCut hs hi hd he => exact execCut_inv (hdec hd) (by exact h.withInputs _) (by exact hs) he

/-- Settles O59: the power-on state is one closed state. -/
theorem resetMeetsInvariant : Obligations.ResetMeetsInvariant :=
  ⟨rfl, rfl, rfl, rfl⟩

end Sys2Proof.Machine
end

section
/-! The pin `rst_n`: where a command stands that it cuts, how much of its trace and of its writes is done, and the
waiting command it abandons (70_reset R230, R231). -/

namespace Sys2Proof.Machine

/-! ## The pin by itself -/

/-- A pin that stands first among the inputs, whether or not a command runs. -/
theorem step_resetPin {s : State} {rest : List Input} (hi : s.inputs = .resetPin :: rest) :
    step s = .next (State.blockReset { s with inputs := rest }) := by
  cases hs : s.seq with
  | idle => simp only [step, hs, hi]
  | busy op n => rw [← hs]; exact step_busy_event hs hi rfl

theorem step_idle_readyCut {s : State} {n k : Nat} {rest : List Input} (hs : s.seq = .idle)
    (hi : s.inputs = .readyCut n k :: rest) :
    step s = .next (State.grant { s with inputs := rest } n).blockReset := by
  simp only [step, hs, hi]

/-- The pin finds an idle block: no command is abandoned. -/
theorem blockReset_of_idle {s : State} (hs : s.seq = .idle) :
    s.blockReset = { s with mode := .uninitialized, inFlight := none } := by
  ext1 <;> simp [State.blockReset, State.busy, hs]

/-! ## How far a cut command has come -/

theorem reach_le_length (bus : Option Nat) (acts : List Act) : reach bus acts ≤ acts.length := by
  induction acts generalizing bus with
  | nil => simp [reach]
  | cons a rest ih => unfold reach; split <;> simp [ih]

theorem busy_eq_false_iff (s : State) : s.busy = false ↔ s.seq = .idle := by
  simp [State.busy]

/-- A reset that records no abandoned command found none. -/
theorem idle_of_not_abandoned {s : State} (h : s.blockReset.contracts.abandoned = false) : s.seq = .idle := by
  rw [blockReset_contracts, Bool.or_eq_false_iff, busy_eq_false_iff] at h
  exact h.2

/-- The trace and the reset line of a cut command: the part of its program that `k` steps and the bus allow, the whole
if nothing was abandoned. -/
theorem execCut_course {i : Instr} {k : Nat} {s t : State} (h : execCut i k s = .next t) :
    let done := (program i s.cfg s.fb).take (min k (reach s.bus (program i s.cfg s.fb)))
    t.trace = s.trace ++ done.filterMap Act.event ∧ t.rstLine = lineLevel s.rstLine (done.filterMap Act.event) ∧
      (t.contracts.abandoned = false →
        (program i s.cfg s.fb).length ≤ min k (reach s.bus (program i s.cfg s.fb))) := by
  intro done
  rcases execCut_next h with ⟨-, m, -, rfl⟩ | ⟨hk, u, hu, rfl⟩
  · refine ⟨by rw [blockReset_trace, cutAt_trace], ?_, fun ha => ?_⟩
    · rw [blockReset_rstLine, cutAt_rstLine, foldl_applyAct_lineLevel, accepted_rstLine]
    · cases idle_of_not_abandoned ha
  · cases hb : usesBus i with
    | true =>
      have hlen := (stepCount_bus hb s).1
      have hmin : min k (reach s.bus (program i s.cfg s.fb)) = reach s.bus (program i s.cfg s.fb) :=
        min_eq_right ((reach_le_length ..).trans (hlen ▸ hk))
      rw [exec_bus hb] at hu
      cases hu
      refine ⟨?_, ?_, fun ha => ?_⟩
      · rw [blockReset_trace, proceed_trace, noted_trace, noted_bus, ← hmin]
      · rw [blockReset_rstLine, proceed_rstLine, foldl_applyAct_lineLevel, noted_rstLine, noted_bus, ← hmin]
      · rw [hmin, ← noted_bus i s]
        exact (advance_seq_idle_iff ..).1 (idle_of_not_abandoned ha)
    | false =>
      have hnone : program i s.cfg s.fb = [] := program_of_not_usesBus hb ..
      obtain ⟨m, w, c, rfl, -⟩ := exec_draw_frame hb hu
      simp [done, hnone, lineLevel]

/-- Without a limit on the bus a command emits all its program's events. -/
theorem exec_unlimited_trace {i : Instr} {s u : State} (hbus : s.bus = none) (h : exec i s = .next u) :
    u.trace = s.trace ++ (program i s.cfg s.fb).filterMap Act.event := by
  cases hb : usesBus i with
  | true =>
    rw [exec_complete hb (by rw [State.busAllows, hbus])] at h
    cases h
    simp
  | false =>
    obtain ⟨m, w, c, rfl, -⟩ := exec_draw_frame hb h
    simp [program_of_not_usesBus hb]

/-! ## How much a cut command has written -/

/-- A command that ends has not stopped at any of its writes. -/
theorem partialFb_exists {i : Instr} {s u : State} (h : exec i s = .next u) (k : Nat) :
    ∃ m, partialFb i k s = .ok m := by
  cases i
  case line x0 y0 x1 y1 =>
    simp only [exec, execLine] at h
    split at h
    · have hon := (plotUnchecked_ok ‹_›).1
      exact ⟨_, plotUnchecked_of_onScreen (fun p hp => hon p (List.mem_of_mem_take hp)) s.fb⟩
    · cases h
  all_goals exact ⟨_, rfl⟩

/-- Whether a command ends, and what it writes, does not depend on the bus. -/
theorem exec_of_unlimited {i : Instr} {s u : State} (h : exec i { s with bus := none } = .next u) :
    ∃ v, exec i s = .next v ∧ v.fb = u.fb := by
  cases hb : usesBus i with
  | true => exact ⟨_, exec_bus hb s, by rw [exec_bus_fb hb h, proceed_fb, noted_fb]⟩
  | false =>
    cases i
    case fbClear | fbSetChecked | circle => cases h; exact ⟨_, rfl, rfl⟩
    case fbSet x y =>
      simp only [exec, execFbSet] at h ⊢
      split at h
      · cases h; exact ⟨_, if_pos ‹_›, rfl⟩
      · cases h
    case line x0 y0 x1 y1 =>
      simp only [exec, execLine] at h ⊢
      split at h
      · cases h; exact ⟨_, rfl, rfl⟩
      · cases h
    all_goals cases hb

/-- A command that would end, cut: it comes to a state, each bit of `FB` as before or as the end leaves it. -/
theorem execCut_of_unlimited {i : Instr} {s u : State} (h : exec i { s with bus := none } = .next u) (k : Nat) :
    ∃ t, execCut i k s = .next t ∧
      (∀ j b : Nat, (t.fb.read j).getLsbD b = (s.fb.read j).getLsbD b ∨
        (t.fb.read j).getLsbD b = (u.fb.read j).getLsbD b) ∧
      (t.contracts.abandoned = false → t.fb = u.fb) := by
  have hcount : stepCount i { s with bus := none } = stepCount i s := by cases i <;> rfl
  have hpart : partialFb i k { s with bus := none } = partialFb i k s := by cases i <;> rfl
  unfold execCut
  split
  · obtain ⟨m, hm⟩ := partialFb_exists h k
    rw [← hpart, hm]
    have hbits := partialFb_bits (s := { s with bus := none }) (by rwa [hcount]) hm h
    exact ⟨_, rfl, hbits, fun ha => by cases idle_of_not_abandoned ha⟩
  · obtain ⟨v, hv, hfb⟩ := exec_of_unlimited h
    rw [hv]
    exact ⟨_, rfl, fun j b => .inr (by rw [blockReset_fb, hfb]), fun _ => hfb⟩

/-! ## The drawing commands, write by write -/

theorem execCut_fbClear {k : Nat} (hk : k ≤ 1024) (s : State) :
    ∃ t, execCut .fbClear k s = .next t ∧ ∀ j < 1024, t.fb.read j = if j < k then 0 else s.fb.read j := by
  rcases Nat.lt_or_eq_of_le hk with h | rfl
  · exact ⟨_, if_pos h, fun j _ => read_clearFirst k s.fb j⟩
  · have hcount : stepCount .fbClear s = 1024 := rfl
    rw [execCut, hcount, if_neg (lt_irrefl _), exec_fbClear]
    refine ⟨_, rfl, fun j hj => ?_⟩
    rw [if_pos hj, blockReset_fb]
    dsimp only
    exact read_zeroed hj

/-- LINE cut after `k` points that are on the screen has plotted them, be they all or some. -/
theorem execCut_line {x0 y0 x1 y1 : Int} {k : Nat} {s : State}
    (h : ∀ p ∈ (lineDrawn x0 y0 x1 y1 s.work).take k, onScreen p.1 p.2 = true) :
    ∃ t, execCut (.line x0 y0 x1 y1) k s = .next t ∧
      t.fb = plotVisible ((lineDrawn x0 y0 x1 y1 s.work).take k) s.fb := by
  unfold execCut
  split
  · have hm : partialFb (.line x0 y0 x1 y1) k s =
        .ok (plotVisible ((lineDrawn x0 y0 x1 y1 s.work).take k) s.fb) := plotUnchecked_of_onScreen h s.fb
    rw [hm]
    exact ⟨_, rfl, rfl⟩
  · have hall : (lineDrawn x0 y0 x1 y1 s.work).take k = lineDrawn x0 y0 x1 y1 s.work :=
      List.take_of_length_le (not_lt.1 ‹_›)
    rw [hall] at h ⊢
    rw [exec_line_of_onScreen h]
    exact ⟨_, rfl, rfl⟩

theorem execCut_circle (cx cy radius : Int) (k : Nat) (s : State) :
    ∃ t, execCut (.circle cx cy radius) k s = .next t ∧
      t.fb = plotVisible ((circleDrawn s.cfg.circleStep cx cy radius s.work).take k) s.fb := by
  unfold execCut
  split
  · exact ⟨_, rfl, rfl⟩
  · refine ⟨_, rfl, ?_⟩
    rw [List.take_of_length_le (not_lt.1 ‹_›)]
    rfl

/-! ## The statement -/

/-- A served word that a pin cuts. -/
theorem step_wordCut_of_decode {s : State} {w : CmdWord} {k : Nat} {rest : List Input} {i : Instr} (hs : s.seq = .idle)
    (hi : s.inputs = .wordCut w k :: rest) (hd : decode (.command w) = .ok i) :
    step s = execCut i k { s with inputs := rest } := by
  rw [step_wordCut hs hi, hd]
  rfl

/-- A drawing command cut anywhere has sent nothing and left the reset line. -/
theorem step_wordCut_draw {s t : State} {w : CmdWord} {k : Nat} {rest : List Input} {i : Instr} (hu : usesBus i = false)
    (hs : s.seq = .idle) (hi : s.inputs = .wordCut w k :: rest) (hd : decode (.command w) = .ok i)
    (ht : execCut i k { s with inputs := rest } = .next t) :
    step s = .next t ∧ t.trace = s.trace ∧ t.rstLine = s.rstLine := by
  obtain ⟨htrace, hline, -⟩ := execCut_course ht
  rw [program_of_not_usesBus hu] at htrace hline
  exact ⟨by rw [step_wordCut_of_decode hs hi hd, ht], by simpa using htrace, by simpa [lineLevel] using hline⟩

/-- What a step with a pin inside a command leaves. -/
theorem step_wordCut_leaves {s u : State} {w : CmdWord} {k : Nat} {rest : List Input} {i : Instr} (hs : s.seq = .idle)
    (hi : s.inputs = .wordCut w k :: rest) (hd : decode (.command w) = .ok i)
    (hu : exec i { s with inputs := rest, bus := none } = .next u) :
    ∃ (t : State) (es : List Event), step s = .next t ∧ t.mode = .uninitialized ∧ t.seq = .idle ∧
      t.inFlight = none ∧ t.inputs = rest ∧ t.cfg = s.cfg ∧ t.trace = s.trace ++ es ∧ t.trace <+: u.trace ∧
      t.rstLine = lineLevel s.rstLine es ∧
      (∀ j b : Nat, (t.fb.read j).getLsbD b = (s.fb.read j).getLsbD b ∨
        (t.fb.read j).getLsbD b = (u.fb.read j).getLsbD b) ∧
      (t.contracts.abandoned = false → t.trace = u.trace ∧ t.fb = u.fb) := by
  obtain ⟨t, ht, hbits, hfb⟩ := execCut_of_unlimited (s := { s with inputs := rest }) hu k
  obtain ⟨hmode, hseq, hflight, hcfg, hin⟩ := execCut_frame ht
  obtain ⟨htrace, hline, hall⟩ := execCut_course ht
  have htraceAll := exec_unlimited_trace rfl hu
  refine ⟨t, _, by rw [step_wordCut_of_decode hs hi hd, ht], hmode, hseq, hflight, hin, hcfg, htrace, ?_, hline, hbits,
    fun ha => ⟨?_, hfb ha⟩⟩
  · rw [htrace, htraceAll]
    exact (List.prefix_append_right_inj _).2 (take_events_prefix ..)
  · rw [htrace, htraceAll, List.take_of_length_le (hall ha)]

/-- Every point of a command's trace is where some pin cuts it. -/
theorem step_wordCut_reaches {s u : State} {w : CmdWord} {rest : List Input} {i : Instr} {es : List Event}
    (hs : s.seq = .idle) (hb : s.bus = none) (hd : decode (.command w) = .ok i)
    (hu : exec i { s with inputs := rest } = .next u) (hes : (s.trace ++ es) <+: u.trace) :
    ∃ (k : Nat) (t : State), step { s with inputs := .wordCut w k :: rest } = .next t ∧
      t.trace = s.trace ++ es ∧ t.rstLine = lineLevel s.rstLine es := by
  rw [exec_unlimited_trace (s := { s with inputs := rest }) hb hu, List.prefix_append_right_inj] at hes
  obtain ⟨k, hk, hdone⟩ := events_prefix_reached hes
  obtain ⟨t, ht, -, -⟩ := execCut_of_unlimited (s := { s with inputs := rest }) (u := u) (by rw [← hb]; exact hu) k
  obtain ⟨htrace, hline, -⟩ := execCut_course ht
  rw [show State.bus { s with inputs := rest } = none from hb, reach_none, min_eq_left hk, hdone] at htrace hline
  exact ⟨k, t, by rw [step_wordCut_of_decode (by exact hs) rfl hd]; exact ht, htrace, hline⟩

/-- How far a waiting command goes on in at most `k` steps with `c` more completions. -/
theorem resumeWithin_course {s : State} {c : Nat} (hb : s.bus = some c) (op : Instr) (n k : Nat) :
    ∃ done, done <+: (program op s.cfg s.fb).drop n ∧ transfers done ≤ c ∧
      (s.resumeWithin op n k).trace = s.trace ++ done.filterMap Act.event ∧
      (s.resumeWithin op n k).rstLine = lineLevel s.rstLine (done.filterMap Act.event) ∧
      ((s.resumeWithin op n k).seq = .idle → done = (program op s.cfg s.fb).drop n) := by
  refine ⟨_, List.take_prefix (min k (reach s.bus _)) _, hb ▸ transfers_take_reach .., proceedWithin_trace .., ?_,
    fun hidle => List.take_of_length_le ((advance_seq_idle_iff ..).1 hidle)⟩
  rw [State.resumeWithin, proceedWithin_rstLine, foldl_applyAct_lineLevel]

/-- What a step with a pin leaves of a command that waits. -/
theorem step_readyCut_leaves {s : State} {op : Instr} {n m k : Nat} {rest : List Input} (hs : s.seq = .busy op n)
    (hb : s.bus = some 0) (hi : s.inputs = .readyCut m k :: rest) :
    ∃ (t : State) (es : List Event), step s = .next t ∧ t.mode = .uninitialized ∧ t.seq = .idle ∧
      t.inFlight = none ∧ t.inputs = rest ∧ t.fb = s.fb ∧ t.trace = s.trace ++ es ∧ es <+: s.pendingEvents ∧
      (bytesOf es).length ≤ m ∧ t.rstLine = lineLevel s.rstLine es ∧
      (t.contracts.abandoned = false → es = s.pendingEvents) := by
  have hpending : s.pendingEvents = ((program op s.cfg s.fb).drop n).filterMap Act.event := by
    rw [State.pendingEvents, hs]
  obtain ⟨done, hdone, hcount, htrace, hline, hall⟩ :=
    resumeWithin_course (s := State.grant { s with inputs := rest } m) (c := m) (by simp [hb]) op n k
  refine ⟨_, done.filterMap Act.event, step_busy_event hs hi rfl, rfl, rfl, rfl, ?_, ?_, htrace, ?_, ?_, hline,
    fun ha => ?_⟩
  · simp [State.event, State.resumeWithin]
  · simp [State.event, State.resumeWithin]
  · rw [hpending]; exact hdone.filterMap _
  · rwa [bytesOf_events_length]
  · rw [hpending, hall (idle_of_not_abandoned ha)]
    rfl

/-- Settles O56: the pin by itself, inside a command (`step_wordCut_leaves`, `step_wordCut_reaches`), inside the drawing
commands write by write, and while a command waits (`step_readyCut_leaves`). -/
theorem resetPinRestoresPowerOn : Obligations.ResetPinRestoresPowerOn := by
  unfold Obligations.ResetPinRestoresPowerOn
  refine ⟨fun s rest hi => step_resetPin hi, fun s n k rest hs hi => ?_,
    fun s u w k rest i hs hi hd hu => step_wordCut_leaves hs hi hd hu,
    fun s u w rest i es hs hb hd hu hes => step_wordCut_reaches hs hb hd hu hes,
    fun s w k rest hs hi => ⟨fun hd hk => ?_, fun x0 y0 x1 y1 hd hon => ?_, fun cx cy radius hd => ?_⟩,
    fun s op n m k rest hs hb hi => step_readyCut_leaves hs hb hi⟩
  · rw [step_idle_readyCut hs hi, blockReset_of_idle (by exact hs)]
    rfl
  · obtain ⟨t, ht, hfb⟩ := execCut_fbClear hk { s with inputs := rest }
    obtain ⟨hstep, htrace, hline⟩ := step_wordCut_draw rfl hs hi hd ht
    refine ⟨t, hstep, htrace, hline, fun j hj => ?_, fun j hj hj' => ?_⟩
    · rw [hfb j (by omega), if_pos hj]
    · rw [hfb j hj', if_neg (by omega)]
  · obtain ⟨t, ht, hfb⟩ := execCut_line (s := { s with inputs := rest }) hon
    obtain ⟨hstep, htrace, hline⟩ := step_wordCut_draw rfl hs hi hd ht
    refine ⟨t, hstep, htrace, hline, fun px py hp => ?_⟩
    rw [hfb]
    exact fbGet_plotVisible_iff _ _ hp
  · obtain ⟨t, ht, hfb⟩ := execCut_circle cx cy radius k { s with inputs := rest }
    obtain ⟨hstep, htrace, hline⟩ := step_wordCut_draw rfl hs hi hd ht
    refine ⟨t, hstep, htrace, hline, fun px py hp => ?_⟩
    rw [hfb]
    exact fbGet_plotVisible_iff _ _ hp

end Sys2Proof.Machine
end
